-- ==== Sys2Proof/Word.lean ====
section
/-! DEFINITION. The word of the Intcode VM core. The encoding is decimal and no rule shifts, masks or slices a
word (00_scope.md R12, 30_encoding.md R53), so a word is a mathematical integer. `Word` types the places that hold
words (the state's fields, syntax); the operations work on `Int`, because "all arithmetic in the rules is on
mathematical integers" (R12). The range a word must lie in depends on `WORD_BITS` and is `Config.isWord`
(Machine/Range.lean). -/

namespace Sys2Proof

/-- The value of one memory cell, one queue entry or one log entry: a signed integer (R6, R12). -/
abbrev Word := Int

end Sys2Proof
end

