-- ==== Sys2Proof/Machine/Causes.lean ====
section
/-! DEFINITION. The fault taxonomy of 60_exceptions.md R82: kinds, codes, details, and the cause a rule raises. -/

namespace Sys2Proof

/-- The four fault kinds (R82). -/
inductive FaultKind where
  | decodeError
  | addressError
  | conversionError
  | overflow
  deriving DecidableEq, Repr

/-- The detail a fault records (R82): a decode error's own detail, or the offending index, the negative value or the
exact result. -/
inductive Detail where
  | badOpcode (op : Nat)
  | badMode (k d : Nat)
  | extraDigits (hi : Nat)
  | value (v : Int)
  deriving DecidableEq, Repr

/-- What `raise K(d)` raises: a kind with the detail that kind carries (R82). -/
inductive Cause where
  | badOpcode (op : Nat)
  | badMode (k d : Nat)
  | extraDigits (hi : Nat)
  | addressError (a : Int)
  | conversionError (v : Int)
  | overflow (r : Int)
  deriving DecidableEq, Repr

/-- The numeric codes 1 to 4 (R82). -/
def FaultKind.code : FaultKind → Nat
  | .decodeError => 1
  | .addressError => 2
  | .conversionError => 3
  | .overflow => 4

/-- The kind of a raised cause (R82, R83). -/
def Cause.kind : Cause → FaultKind
  | .badOpcode _ => .decodeError
  | .badMode _ _ => .decodeError
  | .extraDigits _ => .decodeError
  | .addressError _ => .addressError
  | .conversionError _ => .conversionError
  | .overflow _ => .overflow

/-- The detail recorded for a raised cause (R82). -/
def Cause.detail : Cause → Detail
  | .badOpcode op => .badOpcode op
  | .badMode k d => .badMode k d
  | .extraDigits hi => .extraDigits hi
  | .addressError a => .value a
  | .conversionError v => .value v
  | .overflow r => .value r

end Sys2Proof
end

