-- ==== Sys2Proof/Syntax.lean ====
section
/-! DEFINITION. The syntax: addressing modes, opcodes, the nine instructions, and the lines of the spec's own
assembler notation (30_encoding.md R70, R71). -/

namespace Sys2Proof

/-- An addressing mode: mode digit 0 is Position, mode digit 1 is Immediate (R2, R55). -/
inductive Mode where
  | position
  | immediate
  deriving DecidableEq, Repr

/-- The nine opcodes, by the names of spec/opcode_table.json (R2, R66). -/
inductive Opcode where
  | add
  | mul
  | input
  | output
  | jumpIfTrue
  | jumpIfFalse
  | lessThan
  | equals
  | halt
  deriving DecidableEq, Repr

/-- A decoded instruction, one constructor per row of spec/opcode_table.json. Every instruction carries the modes of
all three mode digits, because the decoder produces all three whatever the opcode (R56, R59); a mode of a parameter the
instruction lacks has no effect on what it does. The parameter words are not part of the instruction: they stay in
memory and are read when it runs (R42, R64). -/
inductive Instr where
  | add (m1 m2 m3 : Mode)
  | mul (m1 m2 m3 : Mode)
  | input (m1 m2 m3 : Mode)
  | output (m1 m2 m3 : Mode)
  | jumpIfTrue (m1 m2 m3 : Mode)
  | jumpIfFalse (m1 m2 m3 : Mode)
  | lessThan (m1 m2 m3 : Mode)
  | equals (m1 m2 m3 : Mode)
  | halt (m1 m2 m3 : Mode)
  deriving DecidableEq, Repr

/-- An operand of the assembler notation: `[n]` is a Position parameter, `#n` an Immediate one, with parameter
word `n` (R70). -/
inductive Operand where
  | cell (n : Word)
  | literal (n : Word)
  deriving DecidableEq, Repr

/-- A line of the assembler notation: an instruction with its operands in parameter order, or a `data` directive
(R70, R71). -/
inductive Line where
  | instr (op : Opcode) (operands : List Operand)
  | data (words : List Word)
  deriving DecidableEq, Repr

end Sys2Proof
end

