-- ==== Sys2Proof/Machine/Formats.lean ====
section
/-! DEFINITION. The opcode map and the four formats (30_encoding.md R60, R61, R66), from spec/opcode_table.json. -/

namespace Sys2Proof

/-- The opcode value, `match` in spec/opcode_table.json (R66). -/
def Opcode.number : Opcode → Nat
  | .add => 1
  | .mul => 2
  | .input => 3
  | .output => 4
  | .jumpIfTrue => 5
  | .jumpIfFalse => 6
  | .lessThan => 7
  | .equals => 8
  | .halt => 99

/-- The rows of the opcode map in the table's order. -/
def opcodeTable : List Opcode :=
  [.add, .mul, .input, .output, .jumpIfTrue, .jumpIfFalse, .lessThan, .equals, .halt]

/-- How many parameters an opcode has: formats F4, F2, F3 and F1 (R60). -/
def Opcode.paramCount : Opcode → Nat
  | .add => 3
  | .mul => 3
  | .input => 1
  | .output => 1
  | .jumpIfTrue => 2
  | .jumpIfFalse => 2
  | .lessThan => 3
  | .equals => 3
  | .halt => 0

/-- The length in words, a function of the opcode alone (R60, R64). -/
def Opcode.length (op : Opcode) : Nat :=
  op.paramCount + 1

/-- The opcode of an instruction. -/
def Instr.opcode : Instr → Opcode
  | .add _ _ _ => .add
  | .mul _ _ _ => .mul
  | .input _ _ _ => .input
  | .output _ _ _ => .output
  | .jumpIfTrue _ _ _ => .jumpIfTrue
  | .jumpIfFalse _ _ _ => .jumpIfFalse
  | .lessThan _ _ _ => .lessThan
  | .equals _ _ _ => .equals
  | .halt _ _ _ => .halt

/-- The instruction with a given opcode and modes. -/
def Opcode.instr : Opcode → Mode → Mode → Mode → Instr
  | .add, m1, m2, m3 => .add m1 m2 m3
  | .mul, m1, m2, m3 => .mul m1 m2 m3
  | .input, m1, m2, m3 => .input m1 m2 m3
  | .output, m1, m2, m3 => .output m1 m2 m3
  | .jumpIfTrue, m1, m2, m3 => .jumpIfTrue m1 m2 m3
  | .jumpIfFalse, m1, m2, m3 => .jumpIfFalse m1 m2 m3
  | .lessThan, m1, m2, m3 => .lessThan m1 m2 m3
  | .equals, m1, m2, m3 => .equals m1 m2 m3
  | .halt, m1, m2, m3 => .halt m1 m2 m3

/-- The modes of parameters 1, 2 and 3 (R61). -/
def Instr.modes : Instr → Mode × Mode × Mode
  | .add m1 m2 m3 => (m1, m2, m3)
  | .mul m1 m2 m3 => (m1, m2, m3)
  | .input m1 m2 m3 => (m1, m2, m3)
  | .output m1 m2 m3 => (m1, m2, m3)
  | .jumpIfTrue m1 m2 m3 => (m1, m2, m3)
  | .jumpIfFalse m1 m2 m3 => (m1, m2, m3)
  | .lessThan m1 m2 m3 => (m1, m2, m3)
  | .equals m1 m2 m3 => (m1, m2, m3)
  | .halt m1 m2 m3 => (m1, m2, m3)

/-- The destination parameter of an instruction, as its number and mode, if it writes memory: parameter 3 of opcodes
1, 2, 7 and 8, parameter 1 of opcode 3 (R47, R61). -/
def Instr.destination : Instr → Option (Nat × Mode)
  | .add _ _ m3 => some (3, m3)
  | .mul _ _ m3 => some (3, m3)
  | .input m1 _ _ => some (1, m1)
  | .output _ _ _ => none
  | .jumpIfTrue _ _ _ => none
  | .jumpIfFalse _ _ _ => none
  | .lessThan _ _ m3 => some (3, m3)
  | .equals _ _ m3 => some (3, m3)
  | .halt _ _ _ => none

/-- The mode an operand of the assembler notation has (R70). -/
def Operand.mode : Operand → Mode
  | .cell _ => .position
  | .literal _ => .immediate

/-- The parameter word an operand of the assembler notation stands for (R70). -/
def Operand.value : Operand → Int
  | .cell n => n
  | .literal n => n

end Sys2Proof
end

