-- ==== Sys2Proof/Config.lean ====
section
/-! DEFINITION. The implementation parameters of 00_scope.md ("Implementation parameters"): `WORD_BITS`,
`OVERFLOW_POLICY` and `EXTRA_DIGIT_POLICY`, each with every value the spec names, and their defaults.
`MEM_LEN` and `INITIAL_INPUT` are arguments of the machine's creation (`State.create`). The spec leaves no value
free (92_eei_decisions.md: "No point is left `OPEN`"), so there is no uninterpreted constant here. -/

namespace Sys2Proof

/-- The values of `WORD_BITS` that the parameter table of 00_scope.md names (R6). -/
inductive WordBits where
  | w32
  | w64
  deriving DecidableEq, Repr

/-- `WORD_BITS` as a number of bits (R6). -/
def WordBits.bits : WordBits → Nat
  | .w32 => 32
  | .w64 => 64

/-- `OVERFLOW_POLICY` (R8). -/
inductive OverflowPolicy where
  | fault
  | wrap
  deriving DecidableEq, Repr

/-- `EXTRA_DIGIT_POLICY` (R9). -/
inductive ExtraDigitPolicy where
  | fault
  | ignore
  deriving DecidableEq, Repr

/-- One choice of the three parameters; it is fixed for the life of an instance. -/
structure Config where
  wordBits    : WordBits
  overflow    : OverflowPolicy
  extraDigits : ExtraDigitPolicy
  deriving DecidableEq, Repr

/-- The defaults of the parameter table: 32 bits, both policies `fault` (R6, R8, R9). -/
def Config.standard : Config :=
  { wordBits := .w32, overflow := .fault, extraDigits := .fault }

end Sys2Proof
end

