-- ==== Sys2Proof/Machine/Range.lean ====
section
/-! DEFINITION. The range of a word under a configuration, and the reduction into it (00_scope.md R6, R8). -/

namespace Sys2Proof

/-- `WMIN = -2^(WORD_BITS-1)` (R6). -/
def Config.wmin (c : Config) : Int :=
  -((2 ^ (c.wordBits.bits - 1) : Nat) : Int)

/-- `WMAX = 2^(WORD_BITS-1) - 1` (R6). -/
def Config.wmax (c : Config) : Int :=
  ((2 ^ (c.wordBits.bits - 1) : Nat) : Int) - 1

/-- `v` is a word: `WMIN <= v <= WMAX` (R6). -/
def Config.isWord (c : Config) (v : Int) : Bool :=
  decide (c.wmin ≤ v) && decide (v ≤ c.wmax)

/-- `wrapW(r) = ((r - WMIN) mod 2^WORD_BITS) + WMIN` (R8). DEDUCED (log entry 3): `mod` is the remainder in
`0 .. 2^WORD_BITS - 1` for a negative `r - WMIN` as well, because R8 calls the result "reduced to the word range". -/
def Config.wrapW (c : Config) (r : Int) : Int :=
  (r - c.wmin) % ((2 ^ c.wordBits.bits : Nat) : Int) + c.wmin

/-- The word whose two's-complement bits are the low `WORD_BITS` bits of `n` (R6: "two's-complement range"). It is
used only to read a word that a tool writes as a number of bits (`wordsOfBits`). -/
def Config.wordOfBits (c : Config) (n : Nat) : Int :=
  c.wrapW (n : Int)

end Sys2Proof
end

