-- ==== Sys2Proof/WellFormed.lean ====
section
/-! DEFINITION. Well-formedness. Every term of `Instr` is well formed: its fields are modes, and each of the 72
combinations of opcode and modes is a legal instruction (30_encoding.md R63, R65). What can be ill formed is what is
built around instructions: a line of the assembler notation (R70, R71), a program image and an input list (R6, R106,
R110). Each check is a Bool. -/

namespace Sys2Proof

/-- Every value of a list is a word (R6): the form of a program image, of an input list, of the queues. -/
def allWords (c : Config) (vs : List Int) : Bool :=
  vs.all c.isWord

/-- The operand count of a line is the parameter count of its opcode (R60, R70). -/
def Line.operandCountOk : Line → Bool
  | .instr op operands => decide (operands.length = op.paramCount)
  | .data _ => true

/-- Every parameter word or data word of a line is a word (R6, R62). -/
def Line.wordsOk (c : Config) : Line → Bool
  | .instr _ operands => allWords c (operands.map Operand.value)
  | .data words => allWords c words

/-- A well-formed line. -/
def Line.wf (c : Config) (l : Line) : Bool :=
  l.operandCountOk && l.wordsOk c

end Sys2Proof
end

