-- ==== Sys2Proof/Decode.lean ====
section
/-! DEFINITION. The decoder (30_encoding.md R53 to R59) and, after it, the encoder (R63). Both are written from the
decimal layout of R53 and the opcode map of R66. The decoder is total: every integer gives an instruction or a named
cause. -/

namespace Sys2Proof

/-- `dig_k(w) = (w div 10^k) mod 10` for a non-negative word (R12, R53). -/
def digit (k n : Nat) : Nat :=
  n / 10 ^ k % 10

/-- The mode that digit `d` of parameter `k` selects; any digit but 0 and 1 is `BadMode(k, d)` (R55, R56). -/
def modeOfDigit (k d : Nat) : Except Cause Mode :=
  if d = 0 then .ok .position
  else if d = 1 then .ok .immediate
  else .error (.badMode k d)

/-- The opcode that the value `w mod 100` names, if any (R58, R66). -/
def opcodeOfNumber (n : Nat) : Option Opcode :=
  opcodeTable.find? (fun op => op.number = n)

/-- Digits above the third mode digit: discarded under policy `ignore`, kept for the check under `fault` (R57, R59). -/
def keptDigits (c : Config) (n : Nat) : Nat :=
  match c.extraDigits with
  | .ignore => n % 100000
  | .fault => n

/-- The decoder on a non-negative word, in R59's order: the mode digits of parameters 1, 2 and 3, then extra digits,
then the opcode. -/
def decodeDigits (n : Nat) : Except Cause Instr := do
  let m1 ← modeOfDigit 1 (digit 2 n)
  let m2 ← modeOfDigit 2 (digit 3 n)
  let m3 ← modeOfDigit 3 (digit 4 n)
  if n / 100000 ≠ 0 then .error (.extraDigits (n / 100000))
  else
    match opcodeOfNumber (n % 100) with
    | some op => .ok (op.instr m1 m2 m3)
    | none => .error (.badOpcode (n % 100))

/-- `Decode(w)` (R59): a negative word is a ConversionError before any digit is taken (R54). -/
def decode (c : Config) (w : Int) : Except Cause Instr :=
  if w < 0 then .error (.conversionError w)
  else decodeDigits (keptDigits c w.toNat)

/-- The mode digit of a mode (R55). -/
def Mode.digit : Mode → Nat
  | .position => 0
  | .immediate => 1

/-- `Encode(op, d1, d2, d3) = op + 100*d1 + 1000*d2 + 10000*d3`, as a natural number (R63). -/
def encodeDigits (op m1d m2d m3d : Nat) : Nat :=
  op + 100 * m1d + 1000 * m2d + 10000 * m3d

/-- The instruction word of an instruction (R63). The parameter words that follow it in memory carry no encoding
fields (R64). -/
def encode (i : Instr) : Int :=
  (encodeDigits i.opcode.number i.modes.1.digit i.modes.2.1.digit i.modes.2.2.digit : Nat)

/-- The words of a number of bits, the first word lowest, `count` of them: the numbering a tool uses to write an
instruction as one number (log entry 5). Bits from `nbits` up are 0. -/
def wordsOfBits (c : Config) (nbits w : Nat) : Nat → List Int
  | 0 => []
  | count + 1 =>
    wordsOfBits c nbits w count ++
      [c.wordOfBits (w % 2 ^ nbits / 2 ^ (c.wordBits.bits * count) % 2 ^ c.wordBits.bits)]

/-- The number of words of the longest instruction (format F4, R60). -/
def longestInstr : Nat := 4

/-- The instruction that a list of words begins with, under the default parameters: the decoder needs the first word
only (R64). -/
def decodeFirst : List Int → Option Instr
  | [] => none
  | first :: _ => (decode Config.standard first).toOption

/-- The instruction the decoder reads from an instruction whose bits are `w`. -/
def decodeTableWord (nbits w : Nat) : Option Instr := decodeFirst (wordsOfBits Config.standard nbits w longestInstr)

end Sys2Proof
end

