-- ==== Sys2Proof/Machine/State.lean ====
section
/-! DEFINITION. The state of one VM Instance (10_state.md: "Each VM Instance has the following state, and nothing
else"), the reasons a step can stop, and the state after reset. -/

namespace Sys2Proof.Machine

/-- Memory: `MEM_LEN` words, indexed from 0; `MEM_LEN` is the list's length (R7, R14). Every index holds a word from
creation on, so there is no index whose contents are undefined, and equal memories are equal lists (log entry 1). -/
abbrev Memory := List Word

/-- The status register (R17). A fault is not a status. -/
inductive Status where
  | notStarted
  | running
  | waitingForInput
  | halted
  deriving DecidableEq, Repr

/-- The fault record `{kind, code, pc, word, detail}` (R23, R87). `word` is none when the fetch itself faulted. -/
structure FaultRecord where
  kind   : FaultKind
  code   : Nat
  pc     : Nat
  word   : Option Word
  detail : Detail
  deriving DecidableEq, Repr

/-- The six state elements of 10_state.md, and the instance's parameters. `config` is not architectural state: it is
fixed at creation and no step and no host operation changes it (log entry 2). -/
structure State where
  config : Config
  mem    : Memory
  pc     : Nat
  status : Status
  inq    : List Word
  outlog : List Word
  fault  : Option FaultRecord
  deriving DecidableEq, Repr

/-- Why a request for a step finds "no step" (R67). The state is unchanged: there is no next state. All three are the
spec's own stuck states (93_implementation_defined.md row 5), raised by `step` alone and never by an instruction's
meaning; all three are safe, because no state is claimed to follow. A fault of an instruction (DecodeError,
AddressError, ConversionError, Overflow) is not one of these: it is a next state in which the fault latch is set. -/
inductive Fault where
  /-- Raised by `step` when the fault latch is set: a faulted instance has no step (R91). Safe. -/
  | noStepFaulted
  /-- Raised by `step` when `status = Halted`: a halted instance has no step (R19). Safe. -/
  | noStepHalted
  /-- Raised by `step` when `status = WaitingForInput` and `inq` is empty: a suspended instance has no step until the
  host appends a word (R24). Safe. -/
  | noStepWaiting
  deriving DecidableEq, Repr

/-- Why an instruction has no meaning. -/
inductive Refusal where
  /-- Raised by an arm of `exec` whose instruction has no meaning yet; no arm of this model raises it. Safe. -/
  | notModelled (mnemonic : String)
  deriving DecidableEq, Repr

/-- `Create(image, initial)` under given parameters: reset is the creation of an instance (R102, R108). -/
def State.create (c : Config) (image : List Word) (initial : List Word) : State :=
  { config := c
    mem := image
    pc := 0
    status := .notStarted
    inq := initial
    outlog := []
    fault := none }

/-- The machine right after reset, before any program is loaded: the default parameters, an image of length 0, which
R107 allows, and an empty initial input list, which R10 allows (log entry 4). -/
def State.reset : State :=
  State.create Config.standard [] []

end Sys2Proof.Machine
end

