-- ==== Sys2Proof/Machine/Ops.lean ====
section
/-! DEFINITION. The named operations over memory and state: the checked read and write (20_memory.md R38, R39), the
start of a step, "no step" and fault entry (30_encoding.md R67, 60_exceptions.md R87). There is no return from a fault
(R93), so fault entry has no counterpart. -/

namespace Sys2Proof.Machine

/-- The 2-bit encoding of `status` (R17). -/
def Status.code : Status → Nat
  | .notStarted => 0
  | .running => 1
  | .waitingForInput => 2
  | .halted => 3

/-- The form every memory of a run has: each cell holds a word (R6, R14). The list form itself is canonical. -/
def Memory.wf (c : Config) (m : Memory) : Bool :=
  allWords c m

/-- `MemRead(a, 1)` (R38): AddressError(a) unless `0 <= a < MEM_LEN`. -/
def memRead (m : Memory) (a : Int) : Except Cause Int :=
  if a < 0 then .error (.addressError a)
  else
    match m[a.toNat]? with
    | some v => .ok v
    | none => .error (.addressError a)

/-- `MemWrite(a, 1, v)` (R39): AddressError(a) unless `0 <= a < MEM_LEN`; every other cell keeps its value. -/
def memWrite (m : Memory) (a : Int) (v : Int) : Except Cause Memory :=
  if a < 0 ∨ (m.length : Int) ≤ a then .error (.addressError a)
  else .ok (m.set a.toNat v)

/-- Memory extended with cells of 0 to at least `n` cells; a load uses it, no instruction does (R41). -/
def memExtend (m : Memory) (n : Nat) : Memory :=
  m ++ List.replicate (n - m.length) 0

/-- Words put at consecutive indices, as a load puts them. -/
def memPlace (m : Memory) (a : Nat) : List Int → Memory
  | [] => m
  | w :: ws => memPlace (m.set a w) (a + 1) ws

/-- `status <- Running`, with which every step begins (R18, R67). -/
def State.begin (s : State) : State :=
  { s with status := .running }

/-- The reason a state has no step, if it has none, in R67's order (R91, R19, R24). -/
def State.noStep (s : State) : Option Fault :=
  if s.fault.isSome then some .noStepFaulted
  else if s.status = .halted then some .noStepHalted
  else if s.status = .waitingForInput ∧ s.inq = [] then some .noStepWaiting
  else none

/-- Fault entry (R87): `status` is Running, the fault record is latched, and every other element is kept. `word` is
the instruction word at `pc`, or none when `pc` itself is not a memory index, which is when the fetch faulted. -/
def State.enterFault (s : State) (k : Cause) : State :=
  { s with
    status := .running
    fault := some
      { kind := k.kind
        code := k.kind.code
        pc := s.pc
        word := s.mem[s.pc]?
        detail := k.detail } }

/-- How a meaning ends (R46, R87): its assignments all take effect, or it raised a cause and none does but those of
fault entry. -/
def State.conclude (s : State) (r : Except Cause State) : Host.Outcome State Fault Refusal :=
  match r with
  | .ok t => .next t
  | .error k => .next (s.enterFault k)

/-- `pc <- pc + n` (R16). -/
def State.advance (s : State) (n : Nat) : State :=
  { s with pc := s.pc + n }

/-- `pc <- t` for a taken jump: a negative target is ConversionError(t), and no upper bound is checked (R77, R78). -/
def State.jump (s : State) (t : Int) : Except Cause State :=
  if t < 0 then .error (.conversionError t)
  else .ok { s with pc := t.toNat }

/-- The memory write of a result to an index (R39). -/
def State.store (s : State) (a : Nat) (v : Int) : Except Cause State := do
  let m ← memWrite s.mem a v
  .ok { s with mem := m }

/-- `outlog <- outlog ++ [v]` (R76). -/
def State.emit (s : State) (v : Int) : State :=
  { s with outlog := s.outlog ++ [v] }

/-- `inq <- tail(inq)`, with the tail given (R75). -/
def State.takeInput (s : State) (rest : List Int) : State :=
  { s with inq := rest }

/-- `status <- WaitingForInput`: the suspension of an input on an empty queue (R75, R88). -/
def State.suspend (s : State) : State :=
  { s with status := .waitingForInput }

/-- `status <- Halted` (R81). -/
def State.haltNow (s : State) : State :=
  { s with status := .halted }

/-- The instruction fetch `MemRead(pc, 1)` (R53, R67). -/
def State.fetch (s : State) : Except Cause Int :=
  memRead s.mem s.pc

/-- Fetch and decode (R67): the instruction at `pc`, or the cause the fetch or the decoder raises. -/
def State.fetchDecode (s : State) : Except Cause Instr := do
  let w ← s.fetch
  decode s.config w

/-- A program loaded at `pc`: the words at consecutive indices from `pc`, memory extended where it is too short, and,
where the instance has no step, `status` and `fault` as a new instance has them (log entry 5). -/
def State.load (s : State) (ws : List Int) : State :=
  let s' : State := { s with mem := memPlace (memExtend s.mem (s.pc + ws.length)) s.pc ws }
  match s.noStep with
  | none => s'
  | some _ => { s' with status := .notStarted, fault := none }

end Sys2Proof.Machine
end

