-- ==== Sys2Proof/Machine/Operands.lean ====
section
/-! DEFINITION. Operand resolution (20_memory.md R42 to R45), each mode written once. -/

namespace Sys2Proof.Machine

/-- The parameter word of slot `pc + i` (R42). -/
def paramWord (s : State) (i : Nat) : Except Cause Int :=
  memRead s.mem ((s.pc + i : Nat) : Int)

/-- `ReadOperand(i, m)` (R43). -/
def readOperand (s : State) (i : Nat) (m : Mode) : Except Cause Int := do
  let p ← paramWord s i
  match m with
  | .immediate => .ok p
  | .position => memRead s.mem p

/-- An index used as a destination, checked (R40, R44). -/
def checkIndex (m : Memory) (a : Int) : Except Cause Nat :=
  if a < 0 ∨ (m.length : Int) ≤ a then .error (.addressError a)
  else .ok a.toNat

/-- `WriteTarget(i, m)` (R44). An Immediate destination is legal, if unusual: it is the parameter slot itself, so the
write goes into the instruction stream (R45). -/
def writeTarget (s : State) (i : Nat) (m : Mode) : Except Cause Nat :=
  match m with
  | .immediate => checkIndex s.mem ((s.pc + i : Nat) : Int)
  | .position => do
    let a ← paramWord s i
    checkIndex s.mem a

/-- Resolve destination parameter `i`, then write the result there (R44, R39). -/
def writeResult (s : State) (i : Nat) (m : Mode) (v : Int) : Except Cause State := do
  let t ← writeTarget s i m
  s.store t v

end Sys2Proof.Machine
end

