-- ==== Sys2Proof/Machine/Flags.lean ====
section
/-! DEFINITION. The ALU's results. The machine has no flags, condition codes or predicates (10_state.md R20): what
other machines keep as an overflow flag is here the range check of an exact result, and a comparison's outcome is a
word. -/

namespace Sys2Proof.Machine

/-- An exact integer result made a word: kept when it is one, and otherwise Overflow(r) or `wrapW(r)`, as the policy
says (R8, R73, R86). -/
def narrow (c : Config) (r : Int) : Except Cause Int :=
  if c.isWord r then .ok r
  else
    match c.overflow with
    | .fault => .error (.overflow r)
    | .wrap => .ok (c.wrapW r)

/-- The word a comparison writes: 1 or 0 (R79, R80). -/
def truthWord (b : Bool) : Int :=
  if b then 1 else 0

/-- A four-word instruction with operands 1 and 2 and destination 3, in R69's order: read parameter 1, then
parameter 2, compute, then resolve the destination and write; then `pc + 4` from the `pc` of the start (R16, R49). -/
def binary (s : State) (m1 m2 m3 : Mode) (compute : Int → Int → Except Cause Int) :
    Except Cause State := do
  let a ← readOperand s 1 m1
  let b ← readOperand s 2 m2
  let r ← compute a b
  let t ← writeResult s 3 m3 r
  .ok (t.advance 4)

/-- A conditional jump: both operands are read before the condition is tested; a taken jump goes to the target, one
not taken to `pc + 3` (R69, R77, R78). -/
def jumpWhen (s : State) (m1 m2 : Mode) (taken : Int → Bool) : Except Cause State := do
  let c ← readOperand s 1 m1
  let t ← readOperand s 2 m2
  if taken c then s.jump t else .ok (s.advance 3)

end Sys2Proof.Machine
end

