-- ==== Sys2Proof/Machine/Arithmetic.lean ====
section
/-! DEFINITION. add and mul (40_arithmetic.md). -/

namespace Sys2Proof.Machine

/-- `add`, opcode 1 (R73). -/
def execAdd (m1 m2 m3 : Mode) (s : State) : Host.Outcome State Fault Refusal :=
  s.conclude (binary s m1 m2 m3 fun a b => narrow s.config (a + b))

/-- `mul`, opcode 2 (R74). -/
def execMul (m1 m2 m3 : Mode) (s : State) : Host.Outcome State Fault Refusal :=
  s.conclude (binary s m1 m2 m3 fun a b => narrow s.config (a * b))

end Sys2Proof.Machine
end

