-- ==== Sys2Proof/Machine/Compare.lean ====
section
/-! DEFINITION. less-than and equals (43_compare.md). The result is always a word, so neither raises Overflow. -/

namespace Sys2Proof.Machine

/-- `less-than`, opcode 7: signed and strict, src1 against src2 in that order (R79). -/
def execLessThan (m1 m2 m3 : Mode) (s : State) : Host.Outcome State Fault Refusal :=
  s.conclude (binary s m1 m2 m3 fun a b => .ok (truthWord (decide (a < b))))

/-- `equals`, opcode 8 (R80). -/
def execEquals (m1 m2 m3 : Mode) (s : State) : Host.Outcome State Fault Refusal :=
  s.conclude (binary s m1 m2 m3 fun a b => .ok (truthWord (decide (a = b))))

end Sys2Proof.Machine
end

