-- ==== Sys2Proof/Machine/Control.lean ====
section
/-! DEFINITION. jump-if-true and jump-if-false (42_control.md). Mode 3 is checked by the decoder and unused (R56). -/

namespace Sys2Proof.Machine

/-- `jump-if-true`, opcode 5: taken when the condition is not 0 (R77). -/
def execJumpIfTrue (m1 m2 _m3 : Mode) (s : State) : Host.Outcome State Fault Refusal :=
  s.conclude (jumpWhen s m1 m2 fun c => decide (c ≠ 0))

/-- `jump-if-false`, opcode 6: taken when the condition is 0 (R78). -/
def execJumpIfFalse (m1 m2 _m3 : Mode) (s : State) : Host.Outcome State Fault Refusal :=
  s.conclude (jumpWhen s m1 m2 fun c => decide (c = 0))

end Sys2Proof.Machine
end

