-- ==== Sys2Proof/Machine/InputOutput.lean ====
section
/-! DEFINITION. input and output (41_io.md). Modes 2 and 3 are checked by the decoder and used by neither (R56). -/

namespace Sys2Proof.Machine

/-- What `input` assigns: the destination is resolved first, then the queue is tested; an empty queue suspends with
nothing else changed, and otherwise the head is stored and `pc` advances by 2 (R75). -/
def inputEffect (s : State) (m1 : Mode) : Except Cause State := do
  let t ← writeTarget s 1 m1
  match s.inq with
  | [] => .ok s.suspend
  | v :: rest =>
    let u ← (s.takeInput rest).store t v
    .ok (u.advance 2)

/-- What `output` assigns (R76). -/
def outputEffect (s : State) (m1 : Mode) : Except Cause State := do
  let a ← readOperand s 1 m1
  .ok ((s.emit a).advance 2)

/-- `input`, opcode 3 (R75). -/
def execInput (m1 _m2 _m3 : Mode) (s : State) : Host.Outcome State Fault Refusal :=
  s.conclude (inputEffect s m1)

/-- `output`, opcode 4 (R76). -/
def execOutput (m1 _m2 _m3 : Mode) (s : State) : Host.Outcome State Fault Refusal :=
  s.conclude (outputEffect s m1)

end Sys2Proof.Machine
end

