-- ==== Sys2Proof/Machine/System.lean ====
section
/-! DEFINITION. halt (44_system.md). -/

namespace Sys2Proof.Machine

/-- `halt`, opcode 99: `status` becomes Halted and `pc` keeps the index of the halt word; no slot is read (R81). -/
def execHalt (_m1 _m2 _m3 : Mode) (s : State) : Host.Outcome State Fault Refusal :=
  s.conclude (.ok s.haltNow)

end Sys2Proof.Machine
end

