-- ==== Sys2Proof/Machine/Dispatch.lean ====
section
/-! DEFINITION. `exec`: the case distinction on the opcode in 30_encoding.md R67, one arm per instruction. -/

namespace Sys2Proof.Machine

def exec (i : Instr) (s : State) : Host.Outcome State Fault Refusal :=
  match i with
  | .add m1 m2 m3 => Sys2Proof.Machine.execAdd m1 m2 m3 s
  | .mul m1 m2 m3 => Sys2Proof.Machine.execMul m1 m2 m3 s
  | .input m1 m2 m3 => Sys2Proof.Machine.execInput m1 m2 m3 s
  | .output m1 m2 m3 => Sys2Proof.Machine.execOutput m1 m2 m3 s
  | .jumpIfTrue m1 m2 m3 => Sys2Proof.Machine.execJumpIfTrue m1 m2 m3 s
  | .jumpIfFalse m1 m2 m3 => Sys2Proof.Machine.execJumpIfFalse m1 m2 m3 s
  | .lessThan m1 m2 m3 => Sys2Proof.Machine.execLessThan m1 m2 m3 s
  | .equals m1 m2 m3 => Sys2Proof.Machine.execEquals m1 m2 m3 s
  | .halt m1 m2 m3 => Sys2Proof.Machine.execHalt m1 m2 m3 s

end Sys2Proof.Machine
end

