-- ==== Sys2Proof/Machine/Step.lean ====
section
/-! DEFINITION. One step of an instance (30_encoding.md R67), and a program's arrival in memory for a tool. -/

namespace Sys2Proof.Machine

/-- `Step()` (R67): no step where the spec gives none; otherwise `status <- Running`, fetch, decode and run, and a
cause raised by the fetch or the decoder is taken by fault entry (R87). -/
def step (s : State) : Host.Outcome State Fault Refusal :=
  match s.noStep with
  | some r => .fault r
  | none =>
    match s.begin.fetchDecode with
    | .error k => .next (s.begin.enterFault k)
    | .ok i => exec i s.begin

/-- `s` with the instruction whose bits are `w` loaded where the next step fetches it, with parameter words of the
bits above the first word, up to the longest instruction (log entry 5). -/
def State.withFetchWord (s : State) (nbits w : Nat) : State :=
  s.load (wordsOfBits s.config nbits w longestInstr)

end Sys2Proof.Machine
end

