-- ==== Sys2Proof/Machine/Assembler.lean ====
section
/-! DEFINITION. The spec's assembler notation made into words (30_encoding.md R70, R71). It is a reading aid of the spec
and no part of the machine. -/

namespace Sys2Proof

/-- The mode of parameter `k + 1` of an operand list; the digit of a parameter the instruction lacks is 0 (R70). -/
def operandMode (operands : List Operand) (k : Nat) : Mode :=
  match operands[k]? with
  | some o => o.mode
  | none => .position

/-- The instruction a line with opcode `op` and these operands spells (R70). -/
def lineInstr (op : Opcode) (operands : List Operand) : Instr :=
  op.instr (operandMode operands 0) (operandMode operands 1) (operandMode operands 2)

/-- The words a line assembles to: the instruction word, then the parameter words; a `data` line's words unchanged
(R70, R71). -/
def Line.words : Line → List Int
  | .instr op operands => encode (lineInstr op operands) :: operands.map Operand.value
  | .data words => words

/-- The program image of a program: its words from index 0 (R71). -/
def assemble (program : List Line) : List Int :=
  program.flatMap Line.words

end Sys2Proof
end

