-- ==== Sys2Proof/Machine/Loader.lean ====
section
/-! DEFINITION. The loader of a program image's text (70_reset_and_hazards.md R105, R106). A text is a list of
characters. A load error is the host's, not one of the block's faults (R106). -/

namespace Sys2Proof

/-- Why a load fails, with the number of the piece (R106). -/
inductive LoadError where
  | notAToken (piece : Nat)
  | outOfRange (piece : Nat) (value : Int)
  deriving DecidableEq, Repr

/-- The whitespace R105 names: space, tab, carriage return and newline. -/
def isBlank (ch : Char) : Bool :=
  ch == ' ' || ch == '\t' || ch == '\r' || ch == '\n'

/-- Leading and trailing whitespace removed (R105). -/
def trim (text : List Char) : List Char :=
  ((text.dropWhile isBlank).reverse.dropWhile isBlank).reverse

/-- The text split at every comma; there is always at least one piece (R105). -/
def splitCommas : List Char → List (List Char)
  | [] => [[]]
  | ch :: rest =>
    if ch = ',' then [] :: splitCommas rest
    else
      match splitCommas rest with
      | [] => [[ch]]
      | piece :: pieces => (ch :: piece) :: pieces

/-- The value of a decimal digit character. -/
def digitValue (ch : Char) : Option Nat :=
  if '0'.toNat ≤ ch.toNat ∧ ch.toNat ≤ '9'.toNat then some (ch.toNat - '0'.toNat) else none

/-- The value of a run of digits after `acc`; none at a character that is no digit. -/
def digitsValue (acc : Nat) : List Char → Option Nat
  | [] => some acc
  | ch :: rest =>
    match digitValue ch with
    | some d => digitsValue (10 * acc + d) rest
    | none => none

/-- The value of `[0-9]+` (R105). -/
def unsignedValue : List Char → Option Nat
  | [] => none
  | ch :: rest => digitsValue 0 (ch :: rest)

/-- The value of a token `[+-]?[0-9]+` (R105). -/
def tokenValue : List Char → Option Int
  | [] => none
  | ch :: rest =>
    if ch = '-' then (unsignedValue rest).map fun n => -(n : Int)
    else if ch = '+' then (unsignedValue rest).map fun n => (n : Int)
    else (unsignedValue (ch :: rest)).map fun n => (n : Int)

/-- The words of the pieces from piece `k` on, or the first error (R106). -/
def loadPieces (c : Config) (k : Nat) : List (List Char) → Except LoadError (List Int)
  | [] => .ok []
  | piece :: pieces =>
    match tokenValue (trim piece) with
    | none => .error (.notAToken k)
    | some v =>
      if c.isWord v then do
        let vs ← loadPieces c (k + 1) pieces
        .ok (v :: vs)
      else .error (.outOfRange k v)

/-- The program image a text holds (R105, R106). -/
def loadImage (c : Config) (text : List Char) : Except LoadError (List Int) :=
  loadPieces c 0 (splitCommas (trim text))

end Sys2Proof
end

