-- ==== Sys2Proof/Machine/Driver.lean ====
section
/-! DEFINITION. The operations through which the host drives one instance (70_reset_and_hazards.md R108 to R112).
`Create` is `State.create`. The reads `Status()`, `Pc()`, `Output()` and `Memory()` are the fields of the state. -/

namespace Sys2Proof.Machine

/-- `PushInput(v)`: the host's only write (R108, R109). That `v` is a word is the host's duty (R110). -/
def State.pushInput (s : State) (v : Int) : State :=
  { s with inq := s.inq ++ [v] }

/-- What the host is told of a `Step()` (R108). -/
inductive StepReply where
  | stepped
  | noStep
  deriving DecidableEq, Repr

/-- `Step()` as the host sees it: where there is no step the state is unchanged (R108). -/
def State.hostStep (s : State) : State × StepReply :=
  match step s with
  | .next t => (t, .stepped)
  | .fault _ => (s, .noStep)
  | .refused _ => (s, .noStep)

/-- What `Fault()` returns when the latch is set: the record and the memory dump (R89, R108). -/
structure FaultReport where
  record : FaultRecord
  memory : Memory
  deriving DecidableEq, Repr

/-- `Fault()` (R89, R108). -/
def State.faultReport (s : State) : Option FaultReport :=
  s.fault.map fun r => { record := r, memory := s.mem }

/-- The condition after a step at which `Run()` returns (R111). -/
def State.runStops (s : State) : Bool :=
  decide (s.status = .waitingForInput) || decide (s.status = .halted) || s.fault.isSome

/-- What a run of bounded length gives: `Run()` returned, or the bound was reached first, which says nothing of how the
run ends (R112, R124). -/
inductive RunResult where
  | returned (s : State)
  | boundReached (s : State)
  deriving DecidableEq, Repr

/-- `Run()` with at most `bound` steps (R111). -/
def State.run : Nat → State → RunResult
  | 0, s => .boundReached s
  | bound + 1, s =>
    match s.hostStep with
    | (_, .noStep) => .returned s
    | (t, .stepped) => if t.runStops then .returned t else State.run bound t

/-- The four ways in which a run can end (R112). -/
inductive RunEnd where
  | completed
  | suspended
  | failed
  | diverged
  deriving DecidableEq, Repr

/-- How a returned run ended (R112), never `diverged`; none for a state no run returns in. The report of a failed run is
the state's `faultReport`. -/
def State.runEnd (s : State) : Option RunEnd :=
  if s.fault.isSome then some .failed
  else
    match s.status with
    | .halted => some .completed
    | .waitingForInput => some .suspended
    | .notStarted => none
    | .running => none

/-- `Run()` returns, in a state that ended in the way `e`, after finitely many steps (R111, R112). -/
def State.RunReturnsAs (s : State) (e : RunEnd) : Prop :=
  ∃ bound t, s.run bound = .returned t ∧ t.runEnd = some e

/-- `Run()` never returns: whatever the bound, it is reached (R112, R124; log entry 9). -/
def State.RunDiverges (s : State) : Prop :=
  ∀ bound, ∃ t, s.run bound = .boundReached t

/-- How the unbounded `Run()` from `s` ends (R112). -/
def State.RunEndsIn (s : State) : RunEnd → Prop
  | .completed => s.RunReturnsAs .completed
  | .suspended => s.RunReturnsAs .suspended
  | .failed => s.RunReturnsAs .failed
  | .diverged => s.RunDiverges

/-- `Create` from a text: a load error creates no instance (R105, R106). -/
def createFromText (c : Config) (text : List Char) (initial : List Int) : Except LoadError State := do
  let image ← loadImage c text
  .ok (State.create c image initial)

end Sys2Proof.Machine
end

