-- ==== Sys2Proof/Machine/Network.lean ====
section
/-! DEFINITION. The host protocol around the block: the Amplifier Network and the Phase Search
(70_reset_and_hazards.md R114 to R120). It adds no state and no step to the block (00_scope.md R4). Runs are bounded:
`steps` bounds each instance's run and `rounds` the activations, and reaching a bound is a result of its own. -/

namespace Sys2Proof.Machine

/-- A network: its instances, the cursor, the positions that have halted, and the current signal (R114, R115). -/
structure Network where
  insts  : List State
  cursor : Nat
  halted : List Nat
  signal : Int
  deriving DecidableEq, Repr

/-- The network of `N` instances, instance `i` created from image `i` with its phase alone as input (R114). -/
def Network.construct (c : Config) (images : List (List Int)) (phases : List Int) (signal0 : Int) : Network :=
  { insts := List.zipWith (fun image phase => State.create c image [phase]) images phases
    cursor := 0
    halted := []
    signal := signal0 }

/-- What one turn of the network gives. -/
inductive Turn where
  | went (n : Network)
  | aborted (i : Nat) (report : FaultReport)
  | boundReached
  deriving DecidableEq, Repr

/-- The cursor moved on cyclically (R115). -/
def Network.moveOn (n : Network) : Network :=
  { n with cursor := (n.cursor + 1) % n.insts.length }

/-- The signal after an activation: the most recent output if the activation produced one (R115). -/
def signalAfter (before after : State) (signal : Int) : Int :=
  if after.outlog.length > before.outlog.length then
    match after.outlog.getLast? with
    | some v => v
    | none => signal
  else signal

/-- The network after its selected instance ran from `s` to `t` without a fault (R115). -/
def Network.settle (n : Network) (s t : State) : Network :=
  { n with
    insts := n.insts.set n.cursor t
    signal := signalAfter s t n.signal
    halted := if t.status = .halted then n.cursor :: n.halted else n.halted }

/-- One turn of the loop body: a halted instance is skipped, a faulting one aborts the network, and otherwise the
instance is given the signal and run (R115, R116, R118). -/
def Network.turn (steps : Nat) (n : Network) : Turn :=
  match n.insts[n.cursor]? with
  | none => .boundReached
  | some s =>
    if s.status = .halted then .went n.moveOn
    else
      match (s.pushInput n.signal).run steps with
      | .boundReached _ => .boundReached
      | .returned t =>
        match t.faultReport with
        | some report => .aborted n.cursor report
        | none => .went (n.settle s t).moveOn

/-- What a network run gives (R117, R118). -/
inductive NetworkResult where
  | answer (signal : Int)
  | aborted (i : Nat) (report : FaultReport)
  | boundReached
  deriving DecidableEq, Repr

/-- The network's loop, its termination condition tested after every activation (R115, R117). -/
def Network.run (steps : Nat) : Nat → Network → NetworkResult
  | 0, n => if n.halted.length < n.insts.length then .boundReached else .answer n.signal
  | rounds + 1, n =>
    if n.halted.length < n.insts.length then
      match n.turn steps with
      | .went n' => Network.run steps rounds n'
      | .aborted i report => .aborted i report
      | .boundReached => .boundReached
    else .answer n.signal

/-- The network run never finishes, whatever the bounds (R118, R124). -/
def Network.RunDiverges (n : Network) : Prop :=
  ∀ steps rounds, n.run steps rounds = .boundReached

/-- `NetworkRun` (R115). -/
def networkRun (c : Config) (steps rounds : Nat) (images : List (List Int)) (phases : List Int)
    (signal0 : Int) : NetworkResult :=
  (Network.construct c images phases signal0).run steps rounds

/-- Each element of a list with the rest of the list, in order. -/
def selections : List Int → List (Int × List Int)
  | [] => []
  | x :: xs => (x, xs) :: (selections xs).map fun p => (p.1, x :: p.2)

/-- The arrangements of `n` elements of a list, in lexicographic order when the list is sorted (R119). -/
def arrangements : Nat → List Int → List (List Int)
  | 0, _ => [[]]
  | n + 1, l => (selections l).flatMap fun p => (arrangements n p.2).map fun q => p.1 :: q

/-- A word put into a sorted list. -/
def insertWord (x : Int) : List Int → List Int
  | [] => [x]
  | y :: ys => if x ≤ y then x :: y :: ys else y :: insertWord x ys

/-- `sorted(P)` (R119). -/
def sortWords : List Int → List Int
  | [] => []
  | x :: xs => insertWord x (sortWords xs)

/-- `Permutations(sorted(P))` in lexicographic order (R119). -/
def phaseOrders (phases : List Int) : List (List Int) :=
  arrangements phases.length (sortWords phases)

/-- What a Phase Search gives: the best signal with its witness, or the abort that a network's fault causes (R119, R120).
The spec does not say what an aborted search reports: that it is the index and report of R118 together with the phase
order of the network that faulted is the model's choice. DESIGN CHOICE, safe (log entry 14). -/
inductive SearchResult where
  | best (found : Option (Int × List Int))
  | aborted (order : List Int) (i : Nat) (report : FaultReport)
  | boundReached
  deriving DecidableEq, Repr

/-- The better of what was found and a new signal: only a strictly larger signal replaces it (R119). -/
def better (found : Option (Int × List Int)) (signal : Int) (order : List Int) : Option (Int × List Int) :=
  match found with
  | none => some (signal, order)
  | some (s, w) => if s < signal then some (signal, order) else some (s, w)

/-- The search over a list of phase orders (R119, R120); `run` is the network run of one order. -/
def searchOrders (run : List Int → NetworkResult) : List (List Int) → Option (Int × List Int) → SearchResult
  | [], found => .best found
  | order :: orders, found =>
    match run order with
    | .answer signal => searchOrders run orders (better found signal order)
    | .aborted i report => .aborted order i report
    | .boundReached => .boundReached

/-- The initial signal of a Phase Search for which the caller gives none (R119, D24). -/
def defaultSignal : Int := 0

/-- `PhaseSearch` (R119): one network per order, each with its own instances of the one image; `signal0` defaults to
0 (D24). -/
def phaseSearch (c : Config) (steps rounds : Nat) (image : List Int) (phases : List Int)
    (signal0 : Int := defaultSignal) : SearchResult :=
  searchOrders
    (fun order => networkRun c steps rounds (List.replicate phases.length image) order signal0)
    (phaseOrders phases) none

end Sys2Proof.Machine
end

