-- ==== Sys2Proof/Safety.lean ====
section
/-! DEFINITION. What the claims say of states and runs: the invariant of a valid instance, the states an instance can
reach under the host's operations, and a safe run. -/

namespace Sys2Proof.Machine

/-- The instruction at `pc` is an input whose destination resolves: what holds of a suspended instance, so that its
retry cannot fault (10_state.md R18, 41_io.md R75). -/
def State.atReadyInput (s : State) : Prop :=
  ∃ m1 m2 m3 t, s.fetchDecode = .ok (.input m1 m2 m3) ∧ writeTarget s 1 m1 = .ok t

/-- The invariant of a valid instance. -/
structure State.Inv (s : State) : Prop where
  /-- every memory cell holds a word (R6, R14) -/
  mem_wf : Memory.wf s.config s.mem = true
  /-- every queued input is a word (R21) -/
  inq_words : allWords s.config s.inq = true
  /-- every logged output is a word (R22) -/
  outlog_words : allWords s.config s.outlog = true
  /-- a faulted instance has `status = Running` (R18, R87) -/
  fault_running : s.fault.isSome → s.status = .running
  /-- a latched record tells the `pc` and the instruction word of the faulted state, and its kind's code (R87, R89) -/
  fault_record : ∀ r, s.fault = some r → r.pc = s.pc ∧ r.word = s.mem[s.pc]? ∧ r.code = r.kind.code
  /-- a suspended instance stands at the input that met the empty queue (R24) -/
  waiting_input : s.status = .waitingForInput → s.atReadyInput

/-- The states of an instance under the host's operations (R108): created from words, stepped, and given words. -/
inductive Reached : State → Prop
  | create (c : Config) (image initial : List Int) (himage : allWords c image = true)
      (hinitial : allWords c initial = true) : Reached (State.create c image initial)
  | step (s t : State) (hs : Reached s) (h : Machine.step s = .next t) : Reached t
  | push (s : State) (v : Int) (hs : Reached s) (hv : s.config.isWord v = true) : Reached (s.pushInput v)

/-- A run is safe when it returns without a fault (R112: completed or suspended). -/
def SafeRun (bound : Nat) (s : State) : Prop :=
  ∃ t, s.run bound = .returned t ∧ t.fault = none

end Sys2Proof.Machine
end

