-- ==== Sys2Proof/Certificates/Slice0/Obligations.lean ====
section
/-! DEFINITION. The statements for the provers. Each docstring says which rule of the spec it formalises, and names the
decision (92_eei_decisions.md) or log entry (notes/assumptions) where a clause rests on one. -/

open Sys2Proof Sys2Proof.Machine

/-! ## Reset and parameters -/

/-- R25 and R27: memory is a copy of the program image, cell by cell, and `status` is NotStarted. -/
def Obligations.CreationCopiesTheImage : Prop :=
  ∀ (c : Config) (image initial : List Int),
    (State.create c image initial).mem.length = image.length ∧
    (∀ (a : Nat) (v : Int), image[a]? = some v → memRead (State.create c image initial).mem (a : Int) = .ok v) ∧
    (State.create c image initial).status = .notStarted

/-- R26, R28, R29 and R30, as decided by D3 and D12: the rest of the reset state. The reset state of the model is the
creation from an image of length 0 and no input under the default parameters (log entry 4). -/
def Obligations.CreationSetsPcQueuesAndLatch : Prop :=
  (∀ (c : Config) (image initial : List Int),
    (State.create c image initial).config = c ∧ (State.create c image initial).pc = 0 ∧
    (State.create c image initial).inq = initial ∧ (State.create c image initial).outlog = [] ∧
    (State.create c image initial).fault = none) ∧
  State.reset = State.create Config.standard [] []

/-- R7: `MEM_LEN` is the length of the image, whatever it is, and neither a step nor a push changes it. -/
def Obligations.MemoryLengthNeverChanges : Prop :=
  (∀ (c : Config) (image initial : List Int), (State.create c image initial).mem.length = image.length) ∧
  (∀ s t : State, step s = .next t → t.mem.length = s.mem.length) ∧
  (∀ (s : State) (v : Int), (s.pushInput v).mem.length = s.mem.length)

/-- The parameters of an instance are fixed: no step and no push changes them (log entry 2, the model's choice of where
they stand). -/
def Obligations.ParametersNeverChange : Prop :=
  (∀ s t : State, step s = .next t → t.config = s.config) ∧
  (∀ (s : State) (v : Int), (s.pushInput v).config = s.config)

/-- R6 with D1: the range of a word at both widths. -/
def Obligations.WordRangeAtBothWidths : Prop :=
  ∀ (o : OverflowPolicy) (x : ExtraDigitPolicy) (v : Int),
    (Config.isWord ⟨.w32, o, x⟩ v = true ↔ -2147483648 ≤ v ∧ v ≤ 2147483647) ∧
    (Config.isWord ⟨.w64, o, x⟩ v = true ↔ -9223372036854775808 ≤ v ∧ v ≤ 9223372036854775807)

/-- R8 with D2, `mod` read as in log entry 3: `wrapW` gives a word that differs from its argument by a multiple of
`2^WORD_BITS`, and leaves a word as it is. -/
def Obligations.WrapReducesIntoTheWordRange : Prop :=
  ∀ (c : Config) (r : Int),
    c.isWord (c.wrapW r) = true ∧ (∃ q : Int, r = c.wrapW r + q * (2 ^ c.wordBits.bits : Nat)) ∧
    (c.isWord r = true → c.wrapW r = r)

/-! ## Memory and operands -/

/-- R38: the checked read, in range and out of range. -/
def Obligations.MemReadChecksTheIndex : Prop :=
  ∀ (m : Memory) (a : Int),
    (0 ≤ a → a < m.length → ∃ v, m[a.toNat]? = some v ∧ memRead m a = .ok v) ∧
    (a < 0 ∨ (m.length : Int) ≤ a → memRead m a = .error (.addressError a))

/-- R39: the checked write: the cell reads as the value, every other cell as before, and a target that `WriteTarget`
gave is always in range. -/
def Obligations.MemWriteChangesOneCell : Prop :=
  (∀ (m : Memory) (a v : Int), 0 ≤ a → a < m.length →
    ∃ m', memWrite m a v = .ok m' ∧ m'.length = m.length ∧ memRead m' a = .ok v ∧
      ∀ j : Int, j ≠ a → memRead m' j = memRead m j) ∧
  (∀ (m : Memory) (a v : Int), a < 0 ∨ (m.length : Int) ≤ a → memWrite m a v = .error (.addressError a)) ∧
  (∀ (s : State) (i : Nat) (m : Mode) (t : Nat) (v : Int), writeTarget s i m = .ok t →
    ∃ m', memWrite s.mem t v = .ok m')

/-- R43: an operand in each mode, and the AddressError of a bad pointer. -/
def Obligations.ReadOperandFollowsTheMode : Prop :=
  ∀ (s : State) (i : Nat),
    readOperand s i .immediate = memRead s.mem ((s.pc + i : Nat) : Int) ∧
    (∀ p, memRead s.mem ((s.pc + i : Nat) : Int) = .ok p → readOperand s i .position = memRead s.mem p) ∧
    (∀ p, memRead s.mem ((s.pc + i : Nat) : Int) = .ok p → p < 0 ∨ (s.mem.length : Int) ≤ p →
      readOperand s i .position = .error (.addressError p)) ∧
    (∀ m, s.mem.length ≤ s.pc + i → readOperand s i m = .error (.addressError ((s.pc + i : Nat) : Int)))

/-- R44: a destination in each mode, with its checks. -/
def Obligations.WriteTargetFollowsTheMode : Prop :=
  ∀ (s : State) (i : Nat),
    (s.pc + i < s.mem.length → writeTarget s i .immediate = .ok (s.pc + i)) ∧
    (∀ t : Nat, memRead s.mem ((s.pc + i : Nat) : Int) = .ok (t : Int) → t < s.mem.length →
      writeTarget s i .position = .ok t) ∧
    (∀ a, memRead s.mem ((s.pc + i : Nat) : Int) = .ok a → a < 0 ∨ (s.mem.length : Int) ≤ a →
      writeTarget s i .position = .error (.addressError a)) ∧
    (∀ m, s.mem.length ≤ s.pc + i → writeTarget s i m = .error (.addressError ((s.pc + i : Nat) : Int)))

/-- R45: an Immediate destination is legal and replaces the word of its own slot; it is no DecodeError. -/
def Obligations.ImmediateDestinationWritesItsSlot : Prop :=
  (∀ (s : State) (i : Nat) (v : Int), s.pc + i < s.mem.length →
    writeResult s i .immediate v = .ok { s with mem := s.mem.set (s.pc + i) v }) ∧
  (∀ (c : Config) (op : Opcode) (m1 m2 m3 : Mode) (k : Nat),
    (op.instr m1 m2 m3).destination = some (k, .immediate) →
    decode c (encode (op.instr m1 m2 m3)) = .ok (op.instr m1 m2 m3))

/-! ## Encoding -/

/-- R54: a negative instruction word, before any digit is taken. -/
def Obligations.NegativeWordIsConversionError : Prop :=
  ∀ (c : Config) (w : Int), w < 0 → decode c w = .error (.conversionError w)

/-- The order of checks of R59, with D6 (all three digits are checked), D7 (extra digits) and D16 (the order). Here
`v` is the word, less its digits above the third mode digit under policy `ignore`. -/
def Obligations.DecodeRejectsInOrder : Prop :=
  ∀ (c : Config) (n v : Nat), v = (if c.extraDigits = .ignore then n % 100000 else n) →
    (2 ≤ v / 100 % 10 → decode c (n : Int) = .error (.badMode 1 (v / 100 % 10))) ∧
    (v / 100 % 10 < 2 → 2 ≤ v / 1000 % 10 → decode c (n : Int) = .error (.badMode 2 (v / 1000 % 10))) ∧
    (v / 100 % 10 < 2 → v / 1000 % 10 < 2 → 2 ≤ v / 10000 % 10 →
      decode c (n : Int) = .error (.badMode 3 (v / 10000 % 10))) ∧
    (v / 100 % 10 < 2 → v / 1000 % 10 < 2 → v / 10000 % 10 < 2 → 100000 ≤ v →
      decode c (n : Int) = .error (.extraDigits (v / 100000))) ∧
    (v / 100 % 10 < 2 → v / 1000 % 10 < 2 → v / 10000 % 10 < 2 → v < 100000 →
      v % 100 ∉ [1, 2, 3, 4, 5, 6, 7, 8, 99] → decode c (n : Int) = .error (.badOpcode (v % 100)))

/-- The three cases of R83 and the one of R54, exactly (with D6, D7): which words decode, which are a DecodeError and
which a ConversionError. -/
def Obligations.EveryWordFallsInOneClass : Prop :=
  ∀ (c : Config) (w : Int),
    ((∃ k, decode c w = .error k ∧ k.kind = .conversionError) ↔ w < 0) ∧
    ((∃ k, decode c w = .error k ∧ k.kind = .decodeError) ↔
      0 ≤ w ∧ (2 ≤ w / 100 % 10 ∨ 2 ≤ w / 1000 % 10 ∨ 2 ≤ w / 10000 % 10 ∨
        (c.extraDigits = .fault ∧ 100000 ≤ w) ∨ w % 100 ∉ ([1, 2, 3, 4, 5, 6, 7, 8, 99] : List Int))) ∧
    ((∃ i, decode c w = .ok i) ∨ ∃ k, decode c w = .error k ∧ (k.kind = .conversionError ∨ k.kind = .decodeError))

/-- The round trip of R63: decoding an encoded instruction gives it back, under every parameter, with every mode. -/
def Obligations.DecodeInvertsEncode : Prop :=
  ∀ (c : Config) (i : Instr), decode c (encode i) = .ok i

/-- The converse of R63, which the spec marks "derived: from rule R53 and rule R59": a word that decodes is the encoding
of what it decodes to, whole under policy `fault` and in its low five digits under `ignore`. -/
def Obligations.EncodeInvertsDecode : Prop :=
  ∀ (c : Config) (w : Int) (i : Instr), decode c w = .ok i →
    0 ≤ w ∧ (c.extraDigits = .fault → encode i = w) ∧ (c.extraDigits = .ignore → encode i = w % 100000)

/-- Words written out from 30_encoding.md R53, R66 and the samples of 95_test_vectors.md V1, one per instruction, decode
to what they stand for. -/
def Obligations.SampleWordsDecode : Prop :=
  ∀ c : Config,
    decode c 1 = .ok (.add .position .position .position) ∧
    decode c 1002 = .ok (.mul .position .immediate .position) ∧
    decode c 103 = .ok (.input .immediate .position .position) ∧
    decode c 104 = .ok (.output .immediate .position .position) ∧
    decode c 1105 = .ok (.jumpIfTrue .immediate .immediate .position) ∧
    decode c 106 = .ok (.jumpIfFalse .immediate .position .position) ∧
    decode c 11007 = .ok (.lessThan .position .immediate .immediate) ∧
    decode c 10008 = .ok (.equals .position .position .immediate) ∧
    decode c 11199 = .ok (.halt .immediate .immediate .immediate)

/-- The notation of R70 (D14): a well-formed line has its format's length, its first word decodes to the instruction it
spells, and its parameter words follow in order. -/
def Obligations.AssembledLineDecodes : Prop :=
  ∀ (c : Config) (op : Opcode) (operands : List Operand), (Line.instr op operands).wf c = true →
    (Line.instr op operands).words.length = op.length ∧
    (∃ w, (Line.instr op operands).words[0]? = some w ∧ decode c w = .ok (lineInstr op operands)) ∧
    (∀ k o, operands[k]? = some o → (Line.instr op operands).words[k + 1]? = some o.value)

/-! ## The step -/

/-- R67: where there is a step and the word at `pc` decodes, the step is the instruction's own effect on the state with
`status` Running. -/
def Obligations.StepRunsTheDecodedInstruction : Prop :=
  ∀ (s : State) (w : Int) (i : Instr), s.fault = none → s.status ≠ .halted →
    ¬ (s.status = .waitingForInput ∧ s.inq = []) →
    memRead s.mem (s.pc : Int) = .ok w → decode s.config w = .ok i →
    step s = exec i { s with status := .running }

/-- R67 and R87 (record layout and codes: D5): a fetch outside memory and a word that does not decode are taken by fault
entry, with no instruction word in the record of the former. -/
def Obligations.StepTakesFetchAndDecodeFaults : Prop :=
  ∀ s : State, s.fault = none → s.status ≠ .halted → ¬ (s.status = .waitingForInput ∧ s.inq = []) →
    (s.mem.length ≤ s.pc →
      step s = .next
        { s with
          status := .running
          fault := some ⟨.addressError, 2, s.pc, none, .value (s.pc : Int)⟩ }) ∧
    (∀ w k, memRead s.mem (s.pc : Int) = .ok w → decode s.config w = .error k →
      step s = .next
        { s with
          status := .running
          fault := some ⟨k.kind, k.kind.code, s.pc, some w, k.detail⟩ })

/-- R91: a faulted instance has no step, whatever the host does; its latch stays, its state is unchanged, and a run that
ends in it has failed. -/
def Obligations.FaultedInstanceHasNoStep : Prop :=
  ∀ s : State, s.fault ≠ none →
    step s = .fault .noStepFaulted ∧ s.hostStep = (s, .noStep) ∧ s.runEnd = some .failed ∧
    (∀ v, (s.pushInput v).fault = s.fault ∧ step (s.pushInput v) = .fault .noStepFaulted)

/-- R67 with R19 (D11) and R24 (D10): exactly which states have no step, and why. -/
def Obligations.NoStepExactlyWhen : Prop :=
  ∀ s : State,
    (step s = .fault .noStepFaulted ↔ s.fault ≠ none) ∧
    (step s = .fault .noStepHalted ↔ s.fault = none ∧ s.status = .halted) ∧
    (step s = .fault .noStepWaiting ↔ s.fault = none ∧ s.status = .waitingForInput ∧ s.inq = []) ∧
    ((∃ t, step s = .next t) ↔
      s.fault = none ∧ s.status ≠ .halted ∧ (s.status = .waitingForInput → s.inq ≠ []))

/-- Every instruction's meaning answers a next state in every state, never a fault or a refusal of the model. The spec
gives no step in a halted, faulted or waiting state (R19, R67, R91): that the meaning is defined there too is the model's
choice (log entry 13), and that a fault is a next state is its inference (log entry 7). The next state may be fault
entry, so this is no completion statement. -/
def Obligations.EveryInstructionAnswersANextState : Prop :=
  ∀ (i : Instr) (s : State), ∃ t, exec i s = .next t

/-- The transition table of R18 (rows by D10 and D18): which states step, and the status after. -/
def Obligations.StatusFollowsTheTransitionTable : Prop :=
  ∀ s t : State, step s = .next t →
    (s.status = .notStarted ∨ s.status = .running ∨ (s.status = .waitingForInput ∧ s.inq ≠ [])) ∧
    (t.fault ≠ none → t.status = .running) ∧
    (t.fault = none → ∃ i, s.fetchDecode = .ok i ∧
      (i.opcode = .halt → t.status = .halted) ∧
      (i.opcode = .input → s.inq = [] → t.status = .waitingForInput) ∧
      (i.opcode ≠ .halt → (i.opcode = .input → s.inq ≠ []) → t.status = .running))

/-! ## The instructions -/

/-- R73: `add` under every mode. Its encoding; the sum stored and `pc` advanced by 4, with every other element kept; the
policy on a sum that is no word; and its exceptions in the order listed. -/
def Obligations.AddMeaning : Prop :=
  ∀ (m1 m2 m3 : Mode) (s : State),
    (∀ c, decode c ((1 + 100 * m1.digit + 1000 * m2.digit + 10000 * m3.digit : Nat) : Int) = .ok (.add m1 m2 m3)) ∧
    (∀ (a b : Int) (t : Nat), readOperand s 1 m1 = .ok a → readOperand s 2 m2 = .ok b → writeTarget s 3 m3 = .ok t →
      s.config.wmin ≤ a + b → a + b ≤ s.config.wmax →
      exec (.add m1 m2 m3) s = .next { s with mem := s.mem.set t (a + b), pc := s.pc + 4 }) ∧
    (∀ (a b : Int) (t : Nat), readOperand s 1 m1 = .ok a → readOperand s 2 m2 = .ok b → writeTarget s 3 m3 = .ok t →
      a + b < s.config.wmin ∨ s.config.wmax < a + b → s.config.overflow = .wrap →
      exec (.add m1 m2 m3) s = .next { s with mem := s.mem.set t (s.config.wrapW (a + b)), pc := s.pc + 4 }) ∧
    (∀ k, readOperand s 1 m1 = .error k → exec (.add m1 m2 m3) s = .next (s.enterFault k)) ∧
    (∀ (a : Int) (k : Cause), readOperand s 1 m1 = .ok a → readOperand s 2 m2 = .error k →
      exec (.add m1 m2 m3) s = .next (s.enterFault k)) ∧
    (∀ a b : Int, readOperand s 1 m1 = .ok a → readOperand s 2 m2 = .ok b →
      a + b < s.config.wmin ∨ s.config.wmax < a + b → s.config.overflow = .fault →
      exec (.add m1 m2 m3) s = .next (s.enterFault (.overflow (a + b)))) ∧
    (∀ (a b : Int) (k : Cause), readOperand s 1 m1 = .ok a → readOperand s 2 m2 = .ok b →
      (s.config.wmin ≤ a + b ∧ a + b ≤ s.config.wmax) ∨ s.config.overflow = .wrap → writeTarget s 3 m3 = .error k →
      exec (.add m1 m2 m3) s = .next (s.enterFault k))

/-- R74: `mul` under every mode, as R73 with the product. -/
def Obligations.MulMeaning : Prop :=
  ∀ (m1 m2 m3 : Mode) (s : State),
    (∀ c, decode c ((2 + 100 * m1.digit + 1000 * m2.digit + 10000 * m3.digit : Nat) : Int) = .ok (.mul m1 m2 m3)) ∧
    (∀ (a b : Int) (t : Nat), readOperand s 1 m1 = .ok a → readOperand s 2 m2 = .ok b → writeTarget s 3 m3 = .ok t →
      s.config.wmin ≤ a * b → a * b ≤ s.config.wmax →
      exec (.mul m1 m2 m3) s = .next { s with mem := s.mem.set t (a * b), pc := s.pc + 4 }) ∧
    (∀ (a b : Int) (t : Nat), readOperand s 1 m1 = .ok a → readOperand s 2 m2 = .ok b → writeTarget s 3 m3 = .ok t →
      a * b < s.config.wmin ∨ s.config.wmax < a * b → s.config.overflow = .wrap →
      exec (.mul m1 m2 m3) s = .next { s with mem := s.mem.set t (s.config.wrapW (a * b)), pc := s.pc + 4 }) ∧
    (∀ k, readOperand s 1 m1 = .error k → exec (.mul m1 m2 m3) s = .next (s.enterFault k)) ∧
    (∀ (a : Int) (k : Cause), readOperand s 1 m1 = .ok a → readOperand s 2 m2 = .error k →
      exec (.mul m1 m2 m3) s = .next (s.enterFault k)) ∧
    (∀ a b : Int, readOperand s 1 m1 = .ok a → readOperand s 2 m2 = .ok b →
      a * b < s.config.wmin ∨ s.config.wmax < a * b → s.config.overflow = .fault →
      exec (.mul m1 m2 m3) s = .next (s.enterFault (.overflow (a * b)))) ∧
    (∀ (a b : Int) (k : Cause), readOperand s 1 m1 = .ok a → readOperand s 2 m2 = .ok b →
      (s.config.wmin ≤ a * b ∧ a * b ≤ s.config.wmax) ∨ s.config.overflow = .wrap → writeTarget s 3 m3 = .error k →
      exec (.mul m1 m2 m3) s = .next (s.enterFault k))

/-- R79: `less-than` under every mode: encoding, result 1 or 0 by a signed strict comparison of src1 against src2, and
exceptions in order; Overflow is never raised. -/
def Obligations.LessThanMeaning : Prop :=
  ∀ (m1 m2 m3 : Mode) (s : State),
    (∀ c, decode c ((7 + 100 * m1.digit + 1000 * m2.digit + 10000 * m3.digit : Nat) : Int) =
      .ok (.lessThan m1 m2 m3)) ∧
    (∀ (a b : Int) (t : Nat), readOperand s 1 m1 = .ok a → readOperand s 2 m2 = .ok b → writeTarget s 3 m3 = .ok t →
      exec (.lessThan m1 m2 m3) s =
        .next { s with mem := s.mem.set t (if a < b then 1 else 0), pc := s.pc + 4 }) ∧
    (∀ k, readOperand s 1 m1 = .error k → exec (.lessThan m1 m2 m3) s = .next (s.enterFault k)) ∧
    (∀ (a : Int) (k : Cause), readOperand s 1 m1 = .ok a → readOperand s 2 m2 = .error k →
      exec (.lessThan m1 m2 m3) s = .next (s.enterFault k)) ∧
    (∀ (a b : Int) (k : Cause), readOperand s 1 m1 = .ok a → readOperand s 2 m2 = .ok b →
      writeTarget s 3 m3 = .error k → exec (.lessThan m1 m2 m3) s = .next (s.enterFault k)) ∧
    (∀ (t : State) (r : FaultRecord), s.fault = none → exec (.lessThan m1 m2 m3) s = .next t → t.fault = some r →
      r.kind = .addressError)

/-- R80: `equals` under every mode, as R79 with equality. -/
def Obligations.EqualsMeaning : Prop :=
  ∀ (m1 m2 m3 : Mode) (s : State),
    (∀ c, decode c ((8 + 100 * m1.digit + 1000 * m2.digit + 10000 * m3.digit : Nat) : Int) =
      .ok (.equals m1 m2 m3)) ∧
    (∀ (a b : Int) (t : Nat), readOperand s 1 m1 = .ok a → readOperand s 2 m2 = .ok b → writeTarget s 3 m3 = .ok t →
      exec (.equals m1 m2 m3) s =
        .next { s with mem := s.mem.set t (if a = b then 1 else 0), pc := s.pc + 4 }) ∧
    (∀ k, readOperand s 1 m1 = .error k → exec (.equals m1 m2 m3) s = .next (s.enterFault k)) ∧
    (∀ (a : Int) (k : Cause), readOperand s 1 m1 = .ok a → readOperand s 2 m2 = .error k →
      exec (.equals m1 m2 m3) s = .next (s.enterFault k)) ∧
    (∀ (a b : Int) (k : Cause), readOperand s 1 m1 = .ok a → readOperand s 2 m2 = .ok b →
      writeTarget s 3 m3 = .error k → exec (.equals m1 m2 m3) s = .next (s.enterFault k)) ∧
    (∀ (t : State) (r : FaultRecord), s.fault = none → exec (.equals m1 m2 m3) s = .next t → t.fault = some r →
      r.kind = .addressError)

/-- R75 with D9 (the destination is resolved before the queue is tested) and D6 (modes 2 and 3 have no effect): `input`
takes the head of the queue, suspends on an empty one, and faults on a bad destination even then. -/
def Obligations.InputMeaning : Prop :=
  ∀ (m1 m2 m3 : Mode) (s : State),
    (∀ c, decode c ((3 + 100 * m1.digit + 1000 * m2.digit + 10000 * m3.digit : Nat) : Int) = .ok (.input m1 m2 m3)) ∧
    (∀ (t : Nat) (v : Int) (rest : List Int), writeTarget s 1 m1 = .ok t → s.inq = v :: rest →
      exec (.input m1 m2 m3) s =
        .next { s with inq := rest, mem := s.mem.set t v, pc := s.pc + 2 }) ∧
    (∀ t : Nat, writeTarget s 1 m1 = .ok t → s.inq = [] →
      exec (.input m1 m2 m3) s = .next { s with status := .waitingForInput }) ∧
    (∀ k, writeTarget s 1 m1 = .error k → exec (.input m1 m2 m3) s = .next (s.enterFault k))

/-- R88: an input on an empty queue is not a fault: `status` is WaitingForInput, nothing else changes, and the host sees
no fault report. -/
def Obligations.EmptyQueueSuspendsWithoutFault : Prop :=
  ∀ (m1 m2 m3 : Mode) (s : State) (t : Nat), s.fault = none → s.inq = [] → writeTarget s 1 m1 = .ok t →
    exec (.input m1 m2 m3) s = .next { s with status := .waitingForInput } ∧
    ({ s with status := .waitingForInput } : State).faultReport = none ∧
    ({ s with status := .waitingForInput } : State).runEnd = some .suspended

/-- R76: `output` under every mode (modes 2 and 3 have no effect): encoding, the append, and its exceptions. -/
def Obligations.OutputMeaning : Prop :=
  ∀ (m1 m2 m3 : Mode) (s : State),
    (∀ c, decode c ((4 + 100 * m1.digit + 1000 * m2.digit + 10000 * m3.digit : Nat) : Int) = .ok (.output m1 m2 m3)) ∧
    (∀ a : Int, readOperand s 1 m1 = .ok a →
      exec (.output m1 m2 m3) s = .next { s with outlog := s.outlog ++ [a], pc := s.pc + 2 }) ∧
    (∀ k, readOperand s 1 m1 = .error k → exec (.output m1 m2 m3) s = .next (s.enterFault k))

/-- R77 with D8 (a negative target of a taken jump) and D16 (both operands are read first): `jump-if-true`. -/
def Obligations.JumpIfTrueMeaning : Prop :=
  ∀ (m1 m2 m3 : Mode) (s : State),
    (∀ c, decode c ((5 + 100 * m1.digit + 1000 * m2.digit + 10000 * m3.digit : Nat) : Int) =
      .ok (.jumpIfTrue m1 m2 m3)) ∧
    (∀ (a : Int) (t : Nat), readOperand s 1 m1 = .ok a → readOperand s 2 m2 = .ok (t : Int) → a ≠ 0 →
      exec (.jumpIfTrue m1 m2 m3) s = .next { s with pc := t }) ∧
    (∀ t : Int, readOperand s 1 m1 = .ok 0 → readOperand s 2 m2 = .ok t →
      exec (.jumpIfTrue m1 m2 m3) s = .next { s with pc := s.pc + 3 }) ∧
    (∀ k, readOperand s 1 m1 = .error k → exec (.jumpIfTrue m1 m2 m3) s = .next (s.enterFault k)) ∧
    (∀ (a : Int) (k : Cause), readOperand s 1 m1 = .ok a → readOperand s 2 m2 = .error k →
      exec (.jumpIfTrue m1 m2 m3) s = .next (s.enterFault k)) ∧
    (∀ a t : Int, readOperand s 1 m1 = .ok a → readOperand s 2 m2 = .ok t → a ≠ 0 → t < 0 →
      exec (.jumpIfTrue m1 m2 m3) s = .next (s.enterFault (.conversionError t)))

/-- R78 with D8 and D16: `jump-if-false`, taken on the exact value 0. -/
def Obligations.JumpIfFalseMeaning : Prop :=
  ∀ (m1 m2 m3 : Mode) (s : State),
    (∀ c, decode c ((6 + 100 * m1.digit + 1000 * m2.digit + 10000 * m3.digit : Nat) : Int) =
      .ok (.jumpIfFalse m1 m2 m3)) ∧
    (∀ t : Nat, readOperand s 1 m1 = .ok 0 → readOperand s 2 m2 = .ok (t : Int) →
      exec (.jumpIfFalse m1 m2 m3) s = .next { s with pc := t }) ∧
    (∀ a t : Int, readOperand s 1 m1 = .ok a → readOperand s 2 m2 = .ok t → a ≠ 0 →
      exec (.jumpIfFalse m1 m2 m3) s = .next { s with pc := s.pc + 3 }) ∧
    (∀ k, readOperand s 1 m1 = .error k → exec (.jumpIfFalse m1 m2 m3) s = .next (s.enterFault k)) ∧
    (∀ (a : Int) (k : Cause), readOperand s 1 m1 = .ok a → readOperand s 2 m2 = .error k →
      exec (.jumpIfFalse m1 m2 m3) s = .next (s.enterFault k)) ∧
    (∀ t : Int, readOperand s 1 m1 = .ok 0 → readOperand s 2 m2 = .ok t → t < 0 →
      exec (.jumpIfFalse m1 m2 m3) s = .next (s.enterFault (.conversionError t)))

/-- R81 with D19 (`pc` is unchanged) and D6: `halt` under every mode completes in every state. -/
def Obligations.HaltMeaning : Prop :=
  ∀ (m1 m2 m3 : Mode) (s : State),
    (∀ c, decode c ((99 + 100 * m1.digit + 1000 * m2.digit + 10000 * m3.digit : Nat) : Int) = .ok (.halt m1 m2 m3)) ∧
    exec (.halt m1 m2 m3) s = .next { s with status := .halted }

/-! ## Frames -/

/-- R47: an instruction that writes memory (opcodes 1, 2, 3, 7 and 8) changes at most the cell its destination names, and
an instruction with no destination (4, 5, 6 and 99), or whose destination does not resolve, changes no cell. -/
def Obligations.MemoryChangesOnlyAtTheTarget : Prop :=
  ∀ (i : Instr) (s t : State), exec i s = .next t →
    t.mem.length = s.mem.length ∧
    (i.destination = none → ∀ j : Int, memRead t.mem j = memRead s.mem j) ∧
    (∀ (k : Nat) (m : Mode), i.destination = some (k, m) →
      (∀ a : Nat, writeTarget s k m = .ok a → ∀ j : Int, j ≠ (a : Int) → memRead t.mem j = memRead s.mem j) ∧
      (∀ c, writeTarget s k m = .error c → ∀ j : Int, memRead t.mem j = memRead s.mem j))

/-- The rest of the frame: the queue changes by `input` only, the log by `output` only, `status` by `input` and `halt`
only, unless the instruction faulted; a faulting instruction changes `status` and the latch and nothing else; and the
latch and the parameters are otherwise kept (R21, R22, R47, R81, R87). -/
def Obligations.EveryOtherElementIsKept : Prop :=
  ∀ (i : Instr) (s t : State), exec i s = .next t →
    t.config = s.config ∧
    (i.opcode ≠ .input → t.inq = s.inq) ∧
    (i.opcode ≠ .output → t.outlog = s.outlog) ∧
    ((t.fault = s.fault ∧ (i.opcode ≠ .input → i.opcode ≠ .halt → t.status = s.status) ∧
        (i.opcode = .input → t.status = s.status ∨ t.status = .waitingForInput)) ∨
     ∃ k, t = s.enterFault k)

/-- R21: only a completed input removes from the queue, at the head and one word each time; the host appends at the tail
and changes nothing else. -/
def Obligations.InputQueueIsFifo : Prop :=
  (∀ s t : State, step s = .next t →
    t.inq = s.inq ∨
      ∃ (v : Int) (m1 m2 m3 : Mode), s.inq = v :: t.inq ∧ s.fetchDecode = .ok (.input m1 m2 m3) ∧
        t.fault = none ∧ t.status = .running) ∧
  (∀ (s t : State) (m1 m2 m3 : Mode), step s = .next t → s.fetchDecode = .ok (.input m1 m2 m3) → t.fault = none →
    t.status = .running → ∃ v : Int, s.inq = v :: t.inq) ∧
  (∀ (s : State) (v : Int), s.pushInput v = { s with inq := s.inq ++ [v] })

/-- R22 (the host's reading: D20): the log only grows, by one word for each completed output and by none otherwise. -/
def Obligations.OutputLogIsAppendOnly : Prop :=
  (∀ s t : State, step s = .next t →
    t.outlog = s.outlog ∨
      ∃ (v : Int) (m1 m2 m3 : Mode), s.fetchDecode = .ok (.output m1 m2 m3) ∧ readOperand s 1 m1 = .ok v ∧
        t.outlog = s.outlog ++ [v] ∧ t.fault = none) ∧
  (∀ (s t : State) (m1 m2 m3 : Mode), step s = .next t → s.fetchDecode = .ok (.output m1 m2 m3) → t.fault = none →
    ∃ v : Int, readOperand s 1 m1 = .ok v ∧ t.outlog = s.outlog ++ [v])

/-- "Status is not a flag: no instruction reads it" (R20): what an instruction does to everything else does not depend
on `status`. -/
def Obligations.NoInstructionReadsStatus : Prop :=
  ∀ (i : Instr) (s t : State) (x : Status), exec i s = .next t →
    ∃ t', exec i { s with status := x } = .next t' ∧ t'.mem = t.mem ∧ t'.pc = t.pc ∧ t'.inq = t.inq ∧
      t'.outlog = t.outlog ∧ t'.fault = t.fault ∧ t'.config = t.config

/-- An instruction reads neither the log nor the words of the queue behind the head (R21, R22, R43): two states that
differ only there are taken to states that differ only there, in the same way. -/
def Obligations.QueueTailAndLogAreNotRead : Prop :=
  ∀ (i : Instr) (s t : State) (moreIn earlierOut : List Int), exec i s = .next t →
    (i.opcode = .input → s.inq ≠ []) →
    exec i { s with inq := s.inq ++ moreIn, outlog := earlierOut ++ s.outlog } =
      .next { t with inq := t.inq ++ moreIn, outlog := earlierOut ++ t.outlog }

/-! ## Faults -/

/-- Fault entry (R87, codes and details of R82; record layout and codes: D5), for each cause. -/
def Obligations.FaultEntryLatchesTheRecord : Prop :=
  ∀ s : State,
    (∀ op, s.enterFault (.badOpcode op) =
      { s with status := .running, fault := some ⟨.decodeError, 1, s.pc, s.mem[s.pc]?, .badOpcode op⟩ }) ∧
    (∀ k d, s.enterFault (.badMode k d) =
      { s with status := .running, fault := some ⟨.decodeError, 1, s.pc, s.mem[s.pc]?, .badMode k d⟩ }) ∧
    (∀ hi, s.enterFault (.extraDigits hi) =
      { s with status := .running, fault := some ⟨.decodeError, 1, s.pc, s.mem[s.pc]?, .extraDigits hi⟩ }) ∧
    (∀ a, s.enterFault (.addressError a) =
      { s with status := .running, fault := some ⟨.addressError, 2, s.pc, s.mem[s.pc]?, .value a⟩ }) ∧
    (∀ v, s.enterFault (.conversionError v) =
      { s with status := .running, fault := some ⟨.conversionError, 3, s.pc, s.mem[s.pc]?, .value v⟩ }) ∧
    (∀ r, s.enterFault (.overflow r) =
      { s with status := .running, fault := some ⟨.overflow, 4, s.pc, s.mem[s.pc]?, .value r⟩ })

/-- R90, which the spec marks "derived", and R87 (D5, D18): a step that faults changes `status` and the latch and nothing
else, and the record tells the `pc`, the word at `pc` and the kind's code. -/
def Obligations.FaultsArePrecise : Prop :=
  ∀ (s t : State) (r : FaultRecord), step s = .next t → t.fault = some r →
    t = { s with status := .running, fault := some r } ∧ r.pc = s.pc ∧ r.word = s.mem[s.pc]? ∧
      r.code = r.kind.code

/-- R86 (D2): exactly when a step latches Overflow, and with which detail. -/
def Obligations.OverflowExactlyWhen : Prop :=
  ∀ (s t : State) (d : Detail), step s = .next t →
    ((∃ r, t.fault = some r ∧ r.kind = .overflow ∧ r.detail = d) ↔
      s.config.overflow = .fault ∧ ∃ (m1 m2 m3 : Mode) (a b x : Int),
        readOperand s 1 m1 = .ok a ∧ readOperand s 2 m2 = .ok b ∧ s.config.isWord x = false ∧ d = .value x ∧
        ((s.fetchDecode = .ok (.add m1 m2 m3) ∧ x = a + b) ∨ (s.fetchDecode = .ok (.mul m1 m2 m3) ∧ x = a * b)))

/-- R85 (D8): exactly when a step latches ConversionError, and with which detail: a negative instruction word, or the
negative target of a taken jump. -/
def Obligations.ConversionErrorExactlyWhen : Prop :=
  ∀ (s t : State) (d : Detail), step s = .next t →
    ((∃ r, t.fault = some r ∧ r.kind = .conversionError ∧ r.detail = d) ↔
      (∃ w : Int, memRead s.mem (s.pc : Int) = .ok w ∧ w < 0 ∧ d = .value w) ∨
      (∃ (m1 m2 m3 : Mode) (a p : Int), readOperand s 1 m1 = .ok a ∧ readOperand s 2 m2 = .ok p ∧ p < 0 ∧
        d = .value p ∧
        ((s.fetchDecode = .ok (.jumpIfTrue m1 m2 m3) ∧ a ≠ 0) ∨
         (s.fetchDecode = .ok (.jumpIfFalse m1 m2 m3) ∧ a = 0))))

/-- R84: an AddressError's detail is an index outside memory. -/
def Obligations.AddressErrorNamesAnInvalidIndex : Prop :=
  ∀ (s t : State) (r : FaultRecord), step s = .next t → t.fault = some r → r.kind = .addressError →
    ∃ a : Int, r.detail = .value a ∧ (a < 0 ∨ (s.mem.length : Int) ≤ a)

/-! ## The invariant of an instance -/

/-- Every state created from an image and an input list of words is valid, and so is the reset state. -/
def Obligations.CreatedStateIsValid : Prop :=
  (∀ (c : Config) (image initial : List Int), allWords c image = true → allWords c initial = true →
    (State.create c image initial).Inv) ∧ State.reset.Inv

/-- Every step from a valid state gives a valid state: memory, queue and log hold words (R6), a faulted instance has
`status` Running and a record that tells its `pc` and word (R87, D5, D18), and a suspended instance stands at an input
whose destination resolves (R24, D9). -/
def Obligations.StepKeepsTheInvariant : Prop :=
  ∀ s t : State, s.Inv → step s = .next t → t.Inv

/-- A push of a word keeps the invariant: the host's duty of R110 suffices (D20). -/
def Obligations.PushKeepsTheInvariant : Prop :=
  ∀ (s : State) (v : Int), s.Inv → s.config.isWord v = true → (s.pushInput v).Inv

/-- The invariant holds of every state an instance reaches under the host's operations, from any image of words. -/
def Obligations.EveryReachedStateIsValid : Prop :=
  ∀ s : State, Reached s → s.Inv

/-- "The retry cannot fault" (R18, derived there; D9, D10): a suspended valid instance that has been given input steps to
Running without a fault, takes the head of the queue into the cell its destination names and advances `pc` by 2. -/
def Obligations.RetryOfASuspendedInputCompletes : Prop :=
  ∀ (s : State) (v : Int) (rest : List Int), s.Inv → s.status = .waitingForInput → s.inq = v :: rest →
    ∃ (m1 m2 m3 : Mode) (a : Nat), s.fetchDecode = .ok (.input m1 m2 m3) ∧ writeTarget s 1 m1 = .ok a ∧
      a < s.mem.length ∧
      step s = .next { s with mem := s.mem.set a v, pc := s.pc + 2, status := .running, inq := rest }

/-! ## The host's operations -/

/-- R111 and R112: every run ends in exactly one of the four ways (divergence said by log entry 9); a run that returns
has completed, is suspended or has failed, and the state it returns in has no step until the host acts; a run is safe
exactly when it returns in a state that has not failed. -/
def Obligations.ReturnedRunHasEnded : Prop :=
  (∀ s : State, ∃! e, s.RunEndsIn e) ∧
  (∀ (bound : Nat) (s t : State), s.run bound = .returned t →
    (t.runEnd = some .completed ∨ t.runEnd = some .suspended ∨ t.runEnd = some .failed) ∧ (∃ r, step t = .fault r)) ∧
  (∀ (bound : Nat) (s : State),
    SafeRun bound s ↔
      ∃ t, s.run bound = .returned t ∧ (t.runEnd = some .completed ∨ t.runEnd = some .suspended))

/-- R113 for runs (R111): a run that returns does so in the same state whatever larger bound it is given. -/
def Obligations.RunDoesNotDependOnTheBound : Prop :=
  ∀ (bound more : Nat) (s t : State), s.run bound = .returned t → s.run (bound + more) = .returned t

/-- R105 to R107 (D17, D27, D21): a loaded image has one word per piece, so it is never empty, and every value is a word;
an empty last piece is refused. -/
def Obligations.LoadedImageIsWellFormed : Prop :=
  (∀ (c : Config) (text : List Char) (image : List Int), loadImage c text = .ok image →
    image.length = text.count ',' + 1 ∧ allWords c image = true) ∧
  (∀ (c : Config) (text : List Char) (image : List Int), loadImage c (text ++ [',']) ≠ .ok image)

/-- The word a tool places is the one the next step runs: after a load the instance has a step, its queues, `pc` and
parameters are as before, and the placed words stand from `pc` on (log entry 5, the model's choice). -/
def Obligations.PlacedInstructionIsFetchedNext : Prop :=
  ∀ (s : State) (nbits w : Nat),
    (s.withFetchWord nbits w).noStep = none ∧ (s.withFetchWord nbits w).pc = s.pc ∧
    (s.withFetchWord nbits w).inq = s.inq ∧ (s.withFetchWord nbits w).outlog = s.outlog ∧
    (s.withFetchWord nbits w).config = s.config ∧
    (∀ (k : Nat) (v : Int), (wordsOfBits s.config nbits w longestInstr)[k]? = some v →
      memRead (s.withFetchWord nbits w).mem ((s.pc + k : Nat) : Int) = .ok v) ∧
    (∀ i, decodeTableWord nbits w = some i →
      step (State.reset.withFetchWord nbits w) = exec i (State.reset.withFetchWord nbits w).begin)

/-! ## The host protocol -/

/-- R116 (D23): the cursor skips an instance that has halted: nothing is pushed and the signal is unchanged. -/
def Obligations.HaltedInstanceIsSkipped : Prop :=
  ∀ (steps : Nat) (n : Network) (s : State), n.insts[n.cursor]? = some s → s.status = .halted →
    n.turn steps = .went { n with cursor := (n.cursor + 1) % n.insts.length }

/-- R15 and R97 under R115: a turn of the network changes no instance but the one at the cursor. -/
def Obligations.TurnTouchesOnlyItsInstance : Prop :=
  ∀ (steps : Nat) (n n' : Network), n.turn steps = .went n' →
    n'.insts.length = n.insts.length ∧ n'.cursor = (n.cursor + 1) % n.insts.length ∧
    ∀ j, j ≠ n.cursor → n'.insts[j]? = n.insts[j]?

/-- R115: an activation hands the signal to its instance and takes the instance's last output of this activation as the
new signal, if there is one. -/
def Obligations.ActivationHandsTheSignalOn : Prop :=
  ∀ (steps : Nat) (n : Network) (s t : State), n.insts[n.cursor]? = some s → s.status ≠ .halted →
    (s.pushInput n.signal).run steps = .returned t → t.fault = none →
    ∃ n', n.turn steps = .went n' ∧ n'.insts[n.cursor]? = some t ∧
      (t.outlog.length ≤ s.outlog.length → n'.signal = n.signal) ∧
      (∀ v, s.outlog.length < t.outlog.length → t.outlog.getLast? = some v → n'.signal = v) ∧
      (t.status = .halted → n'.halted = n.cursor :: n.halted) ∧ (t.status ≠ .halted → n'.halted = n.halted)

/-- R118: a fault in an instance's run stops the network at once, with that instance's index and report. -/
def Obligations.FaultAbortsTheNetwork : Prop :=
  ∀ (steps rounds : Nat) (n : Network) (s t : State) (r : FaultRecord),
    n.halted.length < n.insts.length → n.insts[n.cursor]? = some s → s.status ≠ .halted →
    (s.pushInput n.signal).run steps = .returned t → t.fault = some r →
    n.run steps (rounds + 1) = .aborted n.cursor ⟨r, t.mem⟩

/-- R119 (enumeration order and tie-break: D24): the search's result is the greatest final signal, with the first phase
order that reaches it as witness, and no order was left out. -/
def Obligations.PhaseSearchFindsTheFirstMaximum : Prop :=
  ∀ (c : Config) (steps rounds : Nat) (image phases : List Int) (signal0 best : Int) (witness : List Int),
    phaseSearch c steps rounds image phases signal0 = .best (some (best, witness)) →
    ∃ before after, phaseOrders phases = before ++ witness :: after ∧
      networkRun c steps rounds (List.replicate phases.length image) witness signal0 = .answer best ∧
      (∀ o ∈ before, ∃ v, networkRun c steps rounds (List.replicate phases.length image) o signal0 = .answer v ∧
        v < best) ∧
      (∀ o ∈ after, ∃ v, networkRun c steps rounds (List.replicate phases.length image) o signal0 = .answer v ∧
        v ≤ best)

/-- R119: the orders searched are exactly the permutations of the phases, `N!` of them, in lexicographic order when the
phases are distinct (D24). -/
def Obligations.PhaseOrdersAreThePermutations : Prop :=
  ∀ phases : List Int,
    (∀ o, o ∈ phaseOrders phases ↔ o.Perm phases) ∧
    (phaseOrders phases).length = phases.length.factorial ∧
    (phases.Nodup → (phaseOrders phases).Pairwise (List.Lex (· < ·)))
end

