-- ==== Sys2Proof/Laws/Memory.lean ====
section
/-! SUPPORT. The laws of memory: what a checked read and write answer, that the length and the form are kept, and what
the resolution of operands and destinations answers. -/

namespace Sys2Proof

theorem except_bind_eq_ok {ε α β : Type} {x : Except ε α} {f : α → Except ε β} {b : β} :
    (x >>= f) = .ok b ↔ ∃ a, x = .ok a ∧ f a = .ok b := by
  cases x <;> simp [bind, Except.bind]

theorem except_bind_eq_error {ε α β : Type} {x : Except ε α} {f : α → Except ε β} {e : ε} :
    (x >>= f) = .error e ↔ x = .error e ∨ ∃ a, x = .ok a ∧ f a = .error e := by
  cases x <;> simp [bind, Except.bind]

@[simp] theorem except_ok_bind {ε α β : Type} (a : α) (f : α → Except ε β) : ((.ok a : Except ε α) >>= f) = f a := rfl

@[simp] theorem except_error_bind {ε α β : Type} (e : ε) (f : α → Except ε β) :
    ((.error e : Except ε α) >>= f) = .error e := rfl

theorem allWords_iff {c : Config} {vs : List Int} : allWords c vs = true ↔ ∀ v ∈ vs, c.isWord v = true := by
  simp [allWords]

theorem isWord_iff {c : Config} {v : Int} : c.isWord v = true ↔ c.wmin ≤ v ∧ v ≤ c.wmax := by
  simp [Config.isWord]

namespace Machine

theorem memRead_ok_iff {m : Memory} {a : Int} {v : Int} : memRead m a = .ok v ↔ 0 ≤ a ∧ m[a.toNat]? = some v := by
  unfold memRead
  by_cases h : a < 0
  · simp [h]
  · cases hm : m[a.toNat]? with
    | none => simp [h]
    | some x => simp [h, Int.not_lt.1 h]

theorem memRead_error_iff {m : Memory} {a : Int} {k : Cause} :
    memRead m a = .error k ↔ (a < 0 ∨ (m.length : Int) ≤ a) ∧ k = .addressError a := by
  unfold memRead
  by_cases h : a < 0
  · simp [h, eq_comm]
  · cases hm : m[a.toNat]? with
    | none =>
      have : m.length ≤ a.toNat := by simpa using hm
      have h' : (m.length : Int) ≤ a := by omega
      simp [h, h', eq_comm]
    | some v =>
      have := (List.getElem?_eq_some_iff.1 hm).1
      have h' : ¬ (m.length : Int) ≤ a := by omega
      simp [h, h']

theorem checkIndex_ok_iff {m : Memory} {a : Int} {t : Nat} :
    checkIndex m a = .ok t ↔ a = (t : Int) ∧ t < m.length := by
  unfold checkIndex
  split
  · rename_i h; simp; intro ha; omega
  · rename_i h; simp; constructor <;> intro h' <;> omega

theorem checkIndex_error_iff {m : Memory} {a : Int} {k : Cause} :
    checkIndex m a = .error k ↔ (a < 0 ∨ (m.length : Int) ≤ a) ∧ k = .addressError a := by
  unfold checkIndex
  split
  · rename_i h; simp [h, eq_comm]
  · rename_i h; simp [h]

theorem memWrite_of_lt {m : Memory} {a : Nat} (v : Int) (h : a < m.length) :
    memWrite m (a : Int) v = .ok (m.set a v) := by
  unfold memWrite
  rw [if_neg (by omega)]
  simp

theorem memWrite_ok {m m' : Memory} {a : Int} {v : Int} (h : memWrite m a v = .ok m') :
    0 ≤ a ∧ a < m.length ∧ m' = m.set a.toNat v := by
  unfold memWrite at h
  split at h
  · cases h
  · simp only [Except.ok.injEq] at h
    exact ⟨by omega, by omega, h.symm⟩

theorem memWrite_length {m m' : Memory} {a : Int} {v : Int} (h : memWrite m a v = .ok m') :
    m'.length = m.length := by
  obtain ⟨-, -, rfl⟩ := memWrite_ok h
  simp

theorem memRead_set_other {m : Memory} {a : Nat} {v : Int} {j : Int} (h : j ≠ a) :
    memRead (m.set a v) j = memRead m j := by
  unfold memRead
  split
  · rfl
  · rw [List.getElem?_set_ne (by omega)]

theorem memRead_set_same {m : Memory} {a : Nat} {v : Int} (h : a < m.length) :
    memRead (m.set a v) (a : Int) = .ok v := by
  rw [memRead_ok_iff]
  simp [h]

theorem set_wf {c : Config} {m : Memory} {a : Nat} {v : Int} (hm : Memory.wf c m = true)
    (hv : c.isWord v = true) : Memory.wf c (m.set a v) = true := by
  simp only [Memory.wf, allWords_iff] at *
  intro x hx
  rcases List.mem_or_eq_of_mem_set hx with h | rfl
  · exact hm x h
  · exact hv

theorem memWrite_wf {c : Config} {m m' : Memory} {a : Int} {v : Int} (hm : Memory.wf c m = true)
    (hv : c.isWord v = true) (h : memWrite m a v = .ok m') : Memory.wf c m' = true := by
  obtain ⟨-, -, rfl⟩ := memWrite_ok h
  exact set_wf hm hv

theorem zero_isWord (c : Config) : c.isWord 0 = true := by
  obtain ⟨w, _, _⟩ := c
  cases w <;> simp [isWord_iff, Config.wmin, Config.wmax, WordBits.bits]

theorem one_isWord (c : Config) : c.isWord 1 = true := by
  obtain ⟨w, _, _⟩ := c
  cases w <;> simp [isWord_iff, Config.wmin, Config.wmax, WordBits.bits]

theorem wrapW_isWord (c : Config) (r : Int) : c.isWord (c.wrapW r) = true := by
  obtain ⟨w, _, _⟩ := c
  cases w <;> simp only [isWord_iff, Config.wrapW, Config.wmin, Config.wmax, WordBits.bits] <;> omega

theorem memExtend_wf {c : Config} {m : Memory} (n : Nat) (hm : Memory.wf c m = true) :
    Memory.wf c (memExtend m n) = true := by
  simp only [Memory.wf, allWords_iff, memExtend, List.mem_append] at *
  rintro v (h | h)
  · exact hm v h
  · rw [(List.mem_replicate.1 h).2]; exact zero_isWord c

theorem memPlace_wf {c : Config} {ws : List Int} (hws : allWords c ws = true) :
    ∀ {m : Memory} (a : Nat), Memory.wf c m = true → Memory.wf c (memPlace m a ws) = true := by
  induction ws with
  | nil => intro m a hm; exact hm
  | cons w ws ih =>
    intro m a hm
    rw [allWords_iff] at hws
    exact ih (allWords_iff.2 fun v hv => hws v (List.mem_cons_of_mem _ hv)) (a + 1)
      (set_wf hm (hws w List.mem_cons_self))

theorem create_mem_wf {c : Config} {image : List Int} (initial : List Int) (h : allWords c image = true) :
    Memory.wf c (State.create c image initial).mem = true := h

theorem reset_mem_wf : Memory.wf State.reset.config State.reset.mem = true := by decide

theorem memRead_word {c : Config} {m : Memory} {a : Int} {v : Int} (hm : Memory.wf c m = true)
    (h : memRead m a = .ok v) : c.isWord v = true :=
  allWords_iff.1 hm v (List.mem_of_getElem? (memRead_ok_iff.1 h).2)

theorem readOperand_word {s : State} {i : Nat} {m : Mode} {v : Int} (hm : Memory.wf s.config s.mem = true)
    (h : readOperand s i m = .ok v) : s.config.isWord v = true := by
  obtain ⟨p, hp, h⟩ := except_bind_eq_ok.1 h
  cases m with
  | immediate => cases h; exact memRead_word hm hp
  | position => exact memRead_word hm h

/-- An operand that does not resolve raises AddressError for an index outside memory (R40, R84). -/
theorem readOperand_error {s : State} {i : Nat} {m : Mode} {k : Cause} (h : readOperand s i m = .error k) :
    ∃ a : Int, k = .addressError a ∧ (a < 0 ∨ (s.mem.length : Int) ≤ a) := by
  rcases except_bind_eq_error.1 h with h | ⟨p, -, h⟩
  · obtain ⟨hbad, rfl⟩ := memRead_error_iff.1 h
    exact ⟨_, rfl, hbad⟩
  · cases m with
    | immediate => cases h
    | position =>
      obtain ⟨hbad, rfl⟩ := memRead_error_iff.1 h
      exact ⟨_, rfl, hbad⟩

/-- A destination that does not resolve raises AddressError for an index outside memory (R40, R84). -/
theorem writeTarget_error {s : State} {i : Nat} {m : Mode} {k : Cause} (h : writeTarget s i m = .error k) :
    ∃ a : Int, k = .addressError a ∧ (a < 0 ∨ (s.mem.length : Int) ≤ a) := by
  cases m with
  | immediate =>
    obtain ⟨hbad, rfl⟩ := checkIndex_error_iff.1 h
    exact ⟨_, rfl, hbad⟩
  | position =>
    rcases except_bind_eq_error.1 h with h | ⟨p, -, h⟩
    · obtain ⟨hbad, rfl⟩ := memRead_error_iff.1 h
      exact ⟨_, rfl, hbad⟩
    · obtain ⟨hbad, rfl⟩ := checkIndex_error_iff.1 h
      exact ⟨_, rfl, hbad⟩

theorem writeTarget_lt {s : State} {i : Nat} {m : Mode} {t : Nat} (h : writeTarget s i m = .ok t) :
    t < s.mem.length := by
  cases m with
  | immediate => exact (checkIndex_ok_iff.1 h).2
  | position =>
    obtain ⟨a, -, h⟩ := except_bind_eq_ok.1 h
    exact (checkIndex_ok_iff.1 h).2

theorem store_of_lt {s : State} {a : Nat} (v : Int) (h : a < s.mem.length) :
    s.store a v = .ok { s with mem := s.mem.set a v } := by
  simp [State.store, memWrite_of_lt v h]

theorem writeResult_ok_iff {s t : State} {i : Nat} {m : Mode} {v : Int} :
    writeResult s i m v = .ok t ↔ ∃ d, writeTarget s i m = .ok d ∧ t = { s with mem := s.mem.set d v } := by
  rw [writeResult, except_bind_eq_ok]
  refine exists_congr fun d => and_congr_right fun hd => ?_
  rw [store_of_lt v (writeTarget_lt hd)]
  simp [eq_comm]

theorem writeResult_error_iff {s : State} {i : Nat} {m : Mode} {v : Int} {k : Cause} :
    writeResult s i m v = .error k ↔ writeTarget s i m = .error k := by
  rw [writeResult, except_bind_eq_error]
  constructor
  · rintro (h | ⟨d, hd, h⟩)
    · exact h
    · rw [store_of_lt v (writeTarget_lt hd)] at h; cases h
  · exact .inl

end Machine

end Sys2Proof
end

