-- ==== Sys2Proof/Laws/State.lean ====
section
/-! SUPPORT. One lemma per field per state operation, and per field of a created state, so that no proof unfolds a
record update. -/

namespace Sys2Proof.Machine

@[simp] theorem State.begin_config (s : State) : s.begin.config = s.config := rfl
@[simp] theorem State.begin_mem (s : State) : s.begin.mem = s.mem := rfl
@[simp] theorem State.begin_pc (s : State) : s.begin.pc = s.pc := rfl
@[simp] theorem State.begin_status (s : State) : s.begin.status = .running := rfl
@[simp] theorem State.begin_inq (s : State) : s.begin.inq = s.inq := rfl
@[simp] theorem State.begin_outlog (s : State) : s.begin.outlog = s.outlog := rfl
@[simp] theorem State.begin_fault (s : State) : s.begin.fault = s.fault := rfl

@[simp] theorem State.enterFault_config (s : State) (k : Cause) : (s.enterFault k).config = s.config := rfl
@[simp] theorem State.enterFault_mem (s : State) (k : Cause) : (s.enterFault k).mem = s.mem := rfl
@[simp] theorem State.enterFault_pc (s : State) (k : Cause) : (s.enterFault k).pc = s.pc := rfl
@[simp] theorem State.enterFault_status (s : State) (k : Cause) : (s.enterFault k).status = .running := rfl
@[simp] theorem State.enterFault_inq (s : State) (k : Cause) : (s.enterFault k).inq = s.inq := rfl
@[simp] theorem State.enterFault_outlog (s : State) (k : Cause) : (s.enterFault k).outlog = s.outlog := rfl
@[simp] theorem State.enterFault_fault (s : State) (k : Cause) : (s.enterFault k).fault = some { kind := k.kind, code := k.kind.code, pc := s.pc, word := s.mem[s.pc]?, detail := k.detail } := rfl

@[simp] theorem State.advance_config (s : State) (n : Nat) : (s.advance n).config = s.config := rfl
@[simp] theorem State.advance_mem (s : State) (n : Nat) : (s.advance n).mem = s.mem := rfl
@[simp] theorem State.advance_pc (s : State) (n : Nat) : (s.advance n).pc = s.pc + n := rfl
@[simp] theorem State.advance_status (s : State) (n : Nat) : (s.advance n).status = s.status := rfl
@[simp] theorem State.advance_inq (s : State) (n : Nat) : (s.advance n).inq = s.inq := rfl
@[simp] theorem State.advance_outlog (s : State) (n : Nat) : (s.advance n).outlog = s.outlog := rfl
@[simp] theorem State.advance_fault (s : State) (n : Nat) : (s.advance n).fault = s.fault := rfl

@[simp] theorem State.emit_config (s : State) (v : Int) : (s.emit v).config = s.config := rfl
@[simp] theorem State.emit_mem (s : State) (v : Int) : (s.emit v).mem = s.mem := rfl
@[simp] theorem State.emit_pc (s : State) (v : Int) : (s.emit v).pc = s.pc := rfl
@[simp] theorem State.emit_status (s : State) (v : Int) : (s.emit v).status = s.status := rfl
@[simp] theorem State.emit_inq (s : State) (v : Int) : (s.emit v).inq = s.inq := rfl
@[simp] theorem State.emit_outlog (s : State) (v : Int) : (s.emit v).outlog = s.outlog ++ [v] := rfl
@[simp] theorem State.emit_fault (s : State) (v : Int) : (s.emit v).fault = s.fault := rfl

@[simp] theorem State.takeInput_config (s : State) (rest : List Int) : (s.takeInput rest).config = s.config := rfl
@[simp] theorem State.takeInput_mem (s : State) (rest : List Int) : (s.takeInput rest).mem = s.mem := rfl
@[simp] theorem State.takeInput_pc (s : State) (rest : List Int) : (s.takeInput rest).pc = s.pc := rfl
@[simp] theorem State.takeInput_status (s : State) (rest : List Int) : (s.takeInput rest).status = s.status := rfl
@[simp] theorem State.takeInput_inq (s : State) (rest : List Int) : (s.takeInput rest).inq = rest := rfl
@[simp] theorem State.takeInput_outlog (s : State) (rest : List Int) : (s.takeInput rest).outlog = s.outlog := rfl
@[simp] theorem State.takeInput_fault (s : State) (rest : List Int) : (s.takeInput rest).fault = s.fault := rfl

@[simp] theorem State.suspend_config (s : State) : s.suspend.config = s.config := rfl
@[simp] theorem State.suspend_mem (s : State) : s.suspend.mem = s.mem := rfl
@[simp] theorem State.suspend_pc (s : State) : s.suspend.pc = s.pc := rfl
@[simp] theorem State.suspend_status (s : State) : s.suspend.status = .waitingForInput := rfl
@[simp] theorem State.suspend_inq (s : State) : s.suspend.inq = s.inq := rfl
@[simp] theorem State.suspend_outlog (s : State) : s.suspend.outlog = s.outlog := rfl
@[simp] theorem State.suspend_fault (s : State) : s.suspend.fault = s.fault := rfl

@[simp] theorem State.haltNow_config (s : State) : s.haltNow.config = s.config := rfl
@[simp] theorem State.haltNow_mem (s : State) : s.haltNow.mem = s.mem := rfl
@[simp] theorem State.haltNow_pc (s : State) : s.haltNow.pc = s.pc := rfl
@[simp] theorem State.haltNow_status (s : State) : s.haltNow.status = .halted := rfl
@[simp] theorem State.haltNow_inq (s : State) : s.haltNow.inq = s.inq := rfl
@[simp] theorem State.haltNow_outlog (s : State) : s.haltNow.outlog = s.outlog := rfl
@[simp] theorem State.haltNow_fault (s : State) : s.haltNow.fault = s.fault := rfl

@[simp] theorem State.pushInput_config (s : State) (v : Int) : (s.pushInput v).config = s.config := rfl
@[simp] theorem State.pushInput_mem (s : State) (v : Int) : (s.pushInput v).mem = s.mem := rfl
@[simp] theorem State.pushInput_pc (s : State) (v : Int) : (s.pushInput v).pc = s.pc := rfl
@[simp] theorem State.pushInput_status (s : State) (v : Int) : (s.pushInput v).status = s.status := rfl
@[simp] theorem State.pushInput_inq (s : State) (v : Int) : (s.pushInput v).inq = s.inq ++ [v] := rfl
@[simp] theorem State.pushInput_outlog (s : State) (v : Int) : (s.pushInput v).outlog = s.outlog := rfl
@[simp] theorem State.pushInput_fault (s : State) (v : Int) : (s.pushInput v).fault = s.fault := rfl

@[simp] theorem State.create_config (c : Config) (image initial : List Int) : (State.create c image initial).config = c := rfl
@[simp] theorem State.create_mem (c : Config) (image initial : List Int) : (State.create c image initial).mem = image := rfl
@[simp] theorem State.create_pc (c : Config) (image initial : List Int) : (State.create c image initial).pc = 0 := rfl
@[simp] theorem State.create_status (c : Config) (image initial : List Int) : (State.create c image initial).status = .notStarted := rfl
@[simp] theorem State.create_inq (c : Config) (image initial : List Int) : (State.create c image initial).inq = initial := rfl
@[simp] theorem State.create_outlog (c : Config) (image initial : List Int) : (State.create c image initial).outlog = [] := rfl
@[simp] theorem State.create_fault (c : Config) (image initial : List Int) : (State.create c image initial).fault = none := rfl

end Sys2Proof.Machine
end

