-- ==== Sys2Proof/Laws/Ops.lean ====
section
/-! SUPPORT. What each shared operation can do, said once: the inversions of the effects, of `exec` and of `step`. -/

namespace Sys2Proof.Machine

theorem conclude_next_iff {s t : State} {r : Except Cause State} :
    s.conclude r = .next t ↔ r = .ok t ∨ ∃ k, r = .error k ∧ t = s.enterFault k := by
  cases r <;> simp [State.conclude, eq_comm]

theorem conclude_ok (s t : State) : s.conclude (.ok t) = .next t := rfl

theorem conclude_error (s : State) (k : Cause) : s.conclude (.error k) = .next (s.enterFault k) := rfl

theorem binary_ok_iff {s t : State} {m1 m2 m3 : Mode} {f : Int → Int → Except Cause Int} :
    binary s m1 m2 m3 f = .ok t ↔
      ∃ a b r d, readOperand s 1 m1 = .ok a ∧ readOperand s 2 m2 = .ok b ∧ f a b = .ok r ∧
        writeTarget s 3 m3 = .ok d ∧ t = { s with mem := s.mem.set d r, pc := s.pc + 4 } := by
  simp only [binary, except_bind_eq_ok, writeResult_ok_iff]
  constructor
  · rintro ⟨a, ha, b, hb, r, hr, u, ⟨d, hd, rfl⟩, h⟩
    cases h
    exact ⟨a, b, r, d, ha, hb, hr, hd, rfl⟩
  · rintro ⟨a, b, r, d, ha, hb, hr, hd, rfl⟩
    exact ⟨a, ha, b, hb, r, hr, _, ⟨d, hd, rfl⟩, rfl⟩

theorem binary_error_iff {s : State} {m1 m2 m3 : Mode} {f : Int → Int → Except Cause Int} {k : Cause} :
    binary s m1 m2 m3 f = .error k ↔
      readOperand s 1 m1 = .error k ∨
      ∃ a, readOperand s 1 m1 = .ok a ∧ (readOperand s 2 m2 = .error k ∨
        ∃ b, readOperand s 2 m2 = .ok b ∧ (f a b = .error k ∨
          ∃ r, f a b = .ok r ∧ writeTarget s 3 m3 = .error k)) := by
  simp [binary, except_bind_eq_error, writeResult_error_iff]

theorem jumpWhen_ok_iff {s t : State} {m1 m2 : Mode} {taken : Int → Bool} :
    jumpWhen s m1 m2 taken = .ok t ↔
      ∃ c d, readOperand s 1 m1 = .ok c ∧ readOperand s 2 m2 = .ok d ∧
        ((taken c = true ∧ 0 ≤ d ∧ t = { s with pc := d.toNat }) ∨
         (taken c = false ∧ t = { s with pc := s.pc + 3 })) := by
  simp only [jumpWhen, except_bind_eq_ok]
  constructor
  · rintro ⟨c, hc, d, hd, h⟩
    refine ⟨c, d, hc, hd, ?_⟩
    cases ht : taken c <;> simp only [ht, if_true, State.jump, State.advance] at h
    · cases h; exact .inr ⟨rfl, rfl⟩
    · split at h
      · cases h
      · cases h; exact .inl ⟨rfl, by omega, rfl⟩
  · rintro ⟨c, d, hc, hd, ⟨ht, h0, rfl⟩ | ⟨ht, rfl⟩⟩
    · exact ⟨c, hc, d, hd, by rw [if_pos ht, State.jump, if_neg (by omega)]⟩
    · exact ⟨c, hc, d, hd, by simp [ht, State.advance]⟩

theorem jumpWhen_error_iff {s : State} {m1 m2 : Mode} {taken : Int → Bool} {k : Cause} :
    jumpWhen s m1 m2 taken = .error k ↔
      readOperand s 1 m1 = .error k ∨
      ∃ c, readOperand s 1 m1 = .ok c ∧ (readOperand s 2 m2 = .error k ∨
        ∃ d, readOperand s 2 m2 = .ok d ∧ taken c = true ∧ d < 0 ∧ k = .conversionError d) := by
  simp only [jumpWhen, except_bind_eq_error]
  refine or_congr_right (exists_congr fun c => and_congr_right fun _ => or_congr_right
    (exists_congr fun d => and_congr_right fun _ => ?_))
  cases taken c
  · simp
  · by_cases h : d < 0 <;> simp [State.jump, h, eq_comm]

theorem inputEffect_ok_iff {s t : State} {m1 : Mode} :
    inputEffect s m1 = .ok t ↔
      ∃ d, writeTarget s 1 m1 = .ok d ∧
        ((s.inq = [] ∧ t = { s with status := .waitingForInput }) ∨
         ∃ v rest, s.inq = v :: rest ∧ t = { s with inq := rest, mem := s.mem.set d v, pc := s.pc + 2 }) := by
  rw [inputEffect, except_bind_eq_ok]
  refine exists_congr fun d => and_congr_right fun hd => ?_
  cases hq : s.inq with
  | nil => simpa [State.suspend, hq] using eq_comm
  | cons v rest =>
    have hlt : d < (s.takeInput rest).mem.length := writeTarget_lt hd
    simpa [store_of_lt v hlt, State.advance] using eq_comm

theorem inputEffect_error_iff {s : State} {m1 : Mode} {k : Cause} :
    inputEffect s m1 = .error k ↔ writeTarget s 1 m1 = .error k := by
  rw [inputEffect, except_bind_eq_error]
  constructor
  · rintro (h | ⟨d, hd, h⟩)
    · exact h
    · cases hq : s.inq with
      | nil => simp [hq] at h
      | cons v rest =>
        have hlt : d < (s.takeInput rest).mem.length := writeTarget_lt hd
        simp [hq, store_of_lt v hlt] at h
  · exact .inl

theorem outputEffect_ok_iff {s t : State} {m1 : Mode} :
    outputEffect s m1 = .ok t ↔
      ∃ a, readOperand s 1 m1 = .ok a ∧ t = { s with outlog := s.outlog ++ [a], pc := s.pc + 2 } := by
  rw [outputEffect, except_bind_eq_ok]
  simp [State.emit, State.advance, eq_comm]

theorem outputEffect_error_iff {s : State} {m1 : Mode} {k : Cause} :
    outputEffect s m1 = .error k ↔ readOperand s 1 m1 = .error k := by
  simp [outputEffect, except_bind_eq_error]

theorem narrow_ok_iff {c : Config} {r v : Int} :
    narrow c r = .ok v ↔ (c.isWord r = true ∧ v = r) ∨
      (c.isWord r = false ∧ c.overflow = .wrap ∧ v = c.wrapW r) := by
  unfold narrow
  cases c.isWord r <;> cases h : c.overflow <;> simp [eq_comm]

theorem narrow_error_iff {c : Config} {r : Int} {k : Cause} :
    narrow c r = .error k ↔ c.isWord r = false ∧ c.overflow = .fault ∧ k = .overflow r := by
  unfold narrow
  cases c.isWord r <;> cases h : c.overflow <;> simp [eq_comm]

theorem truthWord_isWord (c : Config) (b : Bool) : c.isWord (truthWord b) = true := by
  cases b
  · exact zero_isWord c
  · exact one_isWord c

theorem narrow_word {c : Config} {r v : Int} (h : narrow c r = .ok v) : c.isWord v = true := by
  rcases narrow_ok_iff.1 h with ⟨hr, rfl⟩ | ⟨-, -, rfl⟩
  · exact hr
  · exact wrapW_isWord c r

/-- What an instruction raises when its effect on a state raises something: the cause, by the instruction's own checks.
Nothing else can raise (R69, R92). -/
inductive Raises (s : State) : Instr → Cause → Prop
  | address (i : Instr) (a : Int) (h : a < 0 ∨ (s.mem.length : Int) ≤ a) : Raises s i (.addressError a)
  | sum (m1 m2 m3 : Mode) (a b : Int) (ha : readOperand s 1 m1 = .ok a) (hb : readOperand s 2 m2 = .ok b)
      (hw : s.config.isWord (a + b) = false) (ho : s.config.overflow = .fault) :
      Raises s (.add m1 m2 m3) (.overflow (a + b))
  | product (m1 m2 m3 : Mode) (a b : Int) (ha : readOperand s 1 m1 = .ok a) (hb : readOperand s 2 m2 = .ok b)
      (hw : s.config.isWord (a * b) = false) (ho : s.config.overflow = .fault) :
      Raises s (.mul m1 m2 m3) (.overflow (a * b))
  | ifTrue (m1 m2 m3 : Mode) (a d : Int) (ha : readOperand s 1 m1 = .ok a) (hd : readOperand s 2 m2 = .ok d)
      (ht : a ≠ 0) (hn : d < 0) : Raises s (.jumpIfTrue m1 m2 m3) (.conversionError d)
  | ifFalse (m1 m2 m3 : Mode) (d : Int) (ha : readOperand s 1 m1 = .ok 0) (hd : readOperand s 2 m2 = .ok d)
      (hn : d < 0) : Raises s (.jumpIfFalse m1 m2 m3) (.conversionError d)

theorem raises_address {s : State} {i : Instr} {k : Cause}
    (h : ∃ a : Int, k = .addressError a ∧ (a < 0 ∨ (s.mem.length : Int) ≤ a)) : Raises s i k := by
  obtain ⟨a, rfl, h⟩ := h
  exact .address i a h

theorem raises_of_binary {s : State} {m1 m2 m3 : Mode} {f : Int → Int → Except Cause Int} {i : Instr} {k : Cause}
    (hf : ∀ a b, readOperand s 1 m1 = .ok a → readOperand s 2 m2 = .ok b → f a b = .error k → Raises s i k)
    (h : binary s m1 m2 m3 f = .error k) : Raises s i k := by
  rcases binary_error_iff.1 h with h | ⟨a, ha, h | ⟨b, hb, h | ⟨r, -, h⟩⟩⟩
  · exact raises_address (readOperand_error h)
  · exact raises_address (readOperand_error h)
  · exact hf a b ha hb h
  · exact raises_address (writeTarget_error h)

/-- Everything that running an instruction can do: fault entry, or one of the five shapes of effect. -/
inductive Effect (s : State) : Instr → State → Prop
  | faulted (i : Instr) (k : Cause) (hk : Raises s i k) : Effect s i (s.enterFault k)
  | stored (i : Instr) (m : Mode) (d : Nat) (v : Int) (hi : i.destination = some (3, m))
      (hd : writeTarget s 3 m = .ok d) (hv : s.config.isWord v = true) :
      Effect s i { s with mem := s.mem.set d v, pc := s.pc + 4 }
  | received (m1 m2 m3 : Mode) (d : Nat) (v : Int) (rest : List Int) (hd : writeTarget s 1 m1 = .ok d)
      (hq : s.inq = v :: rest) :
      Effect s (.input m1 m2 m3) { s with inq := rest, mem := s.mem.set d v, pc := s.pc + 2 }
  | suspended (m1 m2 m3 : Mode) (d : Nat) (hd : writeTarget s 1 m1 = .ok d) (hq : s.inq = []) :
      Effect s (.input m1 m2 m3) { s with status := .waitingForInput }
  | emitted (m1 m2 m3 : Mode) (a : Int) (ha : readOperand s 1 m1 = .ok a) :
      Effect s (.output m1 m2 m3) { s with outlog := s.outlog ++ [a], pc := s.pc + 2 }
  | jumped (i : Instr) (p : Nat) (hi : i.opcode = .jumpIfTrue ∨ i.opcode = .jumpIfFalse) :
      Effect s i { s with pc := p }
  | halted (m1 m2 m3 : Mode) : Effect s (.halt m1 m2 m3) { s with status := .halted }

theorem effect_of_binary {s t : State} {m1 m2 m3 : Mode} {f : Int → Int → Except Cause Int} {i : Instr}
    (hi : i.destination = some (3, m3))
    (hf : ∀ a b r, f a b = .ok r → s.config.isWord r = true)
    (he : ∀ a b k, readOperand s 1 m1 = .ok a → readOperand s 2 m2 = .ok b → f a b = .error k → Raises s i k)
    (h : s.conclude (binary s m1 m2 m3 f) = .next t) : Effect s i t := by
  rcases conclude_next_iff.1 h with h | ⟨k, hk, rfl⟩
  · obtain ⟨a, b, r, d, -, -, hr, hd, rfl⟩ := binary_ok_iff.1 h
    exact .stored i m3 d r hi hd (hf a b r hr)
  · exact .faulted i k (raises_of_binary (fun a b => he a b k) hk)

theorem exec_effect {i : Instr} {s t : State} (h : exec i s = .next t) : Effect s i t := by
  cases i with
  | add m1 m2 m3 =>
    refine effect_of_binary rfl (fun _ _ _ => narrow_word) (fun a b k ha hb hk => ?_) h
    obtain ⟨hw, ho, rfl⟩ := narrow_error_iff.1 hk
    exact .sum m1 m2 m3 a b ha hb hw ho
  | mul m1 m2 m3 =>
    refine effect_of_binary rfl (fun _ _ _ => narrow_word) (fun a b k ha hb hk => ?_) h
    obtain ⟨hw, ho, rfl⟩ := narrow_error_iff.1 hk
    exact .product m1 m2 m3 a b ha hb hw ho
  | lessThan m1 m2 m3 =>
    exact effect_of_binary rfl (fun a b r hr => by cases hr; exact truthWord_isWord _ _)
      (fun _ _ _ _ _ hk => by cases hk) h
  | equals m1 m2 m3 =>
    exact effect_of_binary rfl (fun a b r hr => by cases hr; exact truthWord_isWord _ _)
      (fun _ _ _ _ _ hk => by cases hk) h
  | jumpIfTrue m1 m2 m3 =>
    rcases conclude_next_iff.1 h with h | ⟨k, hk, rfl⟩
    · obtain ⟨c, d, -, -, ⟨-, -, rfl⟩ | ⟨-, rfl⟩⟩ := jumpWhen_ok_iff.1 h <;> exact .jumped _ _ (.inl rfl)
    · refine .faulted _ k ?_
      rcases jumpWhen_error_iff.1 hk with hk | ⟨c, hc, hk | ⟨d, hd, ht, hn, rfl⟩⟩
      · exact raises_address (readOperand_error hk)
      · exact raises_address (readOperand_error hk)
      · exact .ifTrue m1 m2 m3 c d hc hd (by simpa using ht) hn
  | jumpIfFalse m1 m2 m3 =>
    rcases conclude_next_iff.1 h with h | ⟨k, hk, rfl⟩
    · obtain ⟨c, d, -, -, ⟨-, -, rfl⟩ | ⟨-, rfl⟩⟩ := jumpWhen_ok_iff.1 h <;> exact .jumped _ _ (.inr rfl)
    · refine .faulted _ k ?_
      rcases jumpWhen_error_iff.1 hk with hk | ⟨c, hc, hk | ⟨d, hd, ht, hn, rfl⟩⟩
      · exact raises_address (readOperand_error hk)
      · exact raises_address (readOperand_error hk)
      · obtain rfl : c = 0 := by simpa using ht
        exact .ifFalse m1 m2 m3 d hc hd hn
  | input m1 m2 m3 =>
    rcases conclude_next_iff.1 h with h | ⟨k, hk, rfl⟩
    · obtain ⟨d, hd, ⟨hq, rfl⟩ | ⟨v, rest, hq, rfl⟩⟩ := inputEffect_ok_iff.1 h
      · exact .suspended m1 m2 m3 d hd hq
      · exact .received m1 m2 m3 d v rest hd hq
    · exact .faulted _ k (raises_address (writeTarget_error (inputEffect_error_iff.1 hk)))
  | output m1 m2 m3 =>
    rcases conclude_next_iff.1 h with h | ⟨k, hk, rfl⟩
    · obtain ⟨a, ha, rfl⟩ := outputEffect_ok_iff.1 h
      exact .emitted m1 m2 m3 a ha
    · exact .faulted _ k (raises_address (readOperand_error (outputEffect_error_iff.1 hk)))
  | halt m1 m2 m3 => cases h; exact .halted m1 m2 m3

/-- Everything a step that answers a next state can have done. -/
theorem step_next {s t : State} (h : step s = .next t) :
    s.noStep = none ∧
      ((∃ k, s.fetchDecode = .error k ∧ t = s.enterFault k) ∨
       ∃ i, s.fetchDecode = .ok i ∧ exec i s.begin = .next t) := by
  unfold step at h
  have hb : s.begin.fetchDecode = s.fetchDecode := rfl
  split at h
  · cases h
  · refine ⟨‹_›, ?_⟩
    rw [hb] at h
    split at h
    · rename_i k hk
      cases h
      exact .inl ⟨k, hk, rfl⟩
    · rename_i i hi
      exact .inr ⟨i, hi, h⟩

theorem noStep_none {s : State} (h : s.noStep = none) :
    s.fault = none ∧ s.status ≠ .halted ∧ ¬ (s.status = .waitingForInput ∧ s.inq = []) := by
  unfold State.noStep at h
  split at h
  · cases h
  · rename_i hf
    split at h
    · cases h
    · rename_i hh
      split at h
      · cases h
      · rename_i hw
        exact ⟨by simpa using hf, hh, hw⟩

/-- What `decodeFirst` answers: the decoding of the first word of the list, and nothing else of it. -/
theorem decodeFirst_eq_some_iff {ws : List Int} {i : Instr} :
    decodeFirst ws = some i ↔ ∃ first, ws[0]? = some first ∧ decode Config.standard first = .ok i := by
  cases ws with
  | nil => simp [decodeFirst]
  | cons first rest =>
    simp only [decodeFirst]
    cases h : decode Config.standard first <;> simp [Except.toOption, h]

end Sys2Proof.Machine
end

