-- ==== Sys2Proof/Laws/PerInstr.lean ====
section
/-! SUPPORT. The families of per-instruction lemmas named in LAWS.json. `EncodedWord`: the instruction word of an
instruction lies below 100000 and carries the opcode in its two low digits (30_encoding.md R53, R63). -/

namespace Sys2Proof.Laws.EncodedWord

/-- The encoded word is a non-negative number of at most five digits whose low two are the opcode. -/
def Statement (i : Instr) : Prop :=
  0 ≤ encode i ∧ encode i < 100000 ∧ encode i % 100 = (i.opcode.number : Int)

theorem add (m1 m2 m3 : Mode) : Statement (.add m1 m2 m3) := by
  cases m1 <;> cases m2 <;> cases m3 <;> simp only [Statement] <;> decide

theorem mul (m1 m2 m3 : Mode) : Statement (.mul m1 m2 m3) := by
  cases m1 <;> cases m2 <;> cases m3 <;> simp only [Statement] <;> decide

theorem input (m1 m2 m3 : Mode) : Statement (.input m1 m2 m3) := by
  cases m1 <;> cases m2 <;> cases m3 <;> simp only [Statement] <;> decide

theorem output (m1 m2 m3 : Mode) : Statement (.output m1 m2 m3) := by
  cases m1 <;> cases m2 <;> cases m3 <;> simp only [Statement] <;> decide

theorem jumpIfTrue (m1 m2 m3 : Mode) : Statement (.jumpIfTrue m1 m2 m3) := by
  cases m1 <;> cases m2 <;> cases m3 <;> simp only [Statement] <;> decide

theorem jumpIfFalse (m1 m2 m3 : Mode) : Statement (.jumpIfFalse m1 m2 m3) := by
  cases m1 <;> cases m2 <;> cases m3 <;> simp only [Statement] <;> decide

theorem lessThan (m1 m2 m3 : Mode) : Statement (.lessThan m1 m2 m3) := by
  cases m1 <;> cases m2 <;> cases m3 <;> simp only [Statement] <;> decide

theorem equals (m1 m2 m3 : Mode) : Statement (.equals m1 m2 m3) := by
  cases m1 <;> cases m2 <;> cases m3 <;> simp only [Statement] <;> decide

theorem halt (m1 m2 m3 : Mode) : Statement (.halt m1 m2 m3) := by
  cases m1 <;> cases m2 <;> cases m3 <;> simp only [Statement] <;> decide

end Sys2Proof.Laws.EncodedWord
end

