-- ==== Sys2Proof/Laws/Runs.lean ====
section
/-! SUPPORT. The laws of runs: a bounded run's equation, what divergence says, and that a diverging instance takes its
network with it. -/

namespace Sys2Proof.Machine

@[simp] theorem run_zero (s : State) : s.run 0 = .boundReached s := rfl

theorem run_succ_of_next {s t : State} (bound : Nat) (h : step s = .next t) :
    s.run (bound + 1) = if t.runStops then .returned t else t.run bound := by
  simp [State.run, State.hostStep, h]

theorem run_succ_of_noStep {s : State} (bound : Nat) (h : ∀ t, step s ≠ .next t) : s.run (bound + 1) = .returned s := by
  cases hs : step s <;> simp_all [State.run, State.hostStep]

/-- A run diverges exactly when no bound makes it return (R112: "the run never returns"). -/
theorem runDiverges_iff {s : State} : s.RunDiverges ↔ ∀ bound t, s.run bound ≠ .returned t := by
  refine ⟨fun h bound t ht => ?_, fun h bound => ?_⟩
  · obtain ⟨u, hu⟩ := h bound
    rw [ht] at hu
    cases hu
  · cases hr : s.run bound with
    | returned t => exact absurd hr (h bound t)
    | boundReached t => exact ⟨t, rfl⟩

/-- The first step of a diverging run: it does not stop the run, and what it leads to diverges exactly when the run
does. -/
theorem runDiverges_of_next {s t : State} (h : step s = .next t) (hs : t.runStops = false) :
    s.RunDiverges ↔ t.RunDiverges := by
  refine ⟨fun hd bound => ?_, fun hd bound => ?_⟩
  · simpa [run_succ_of_next bound h, hs] using hd (bound + 1)
  · cases bound with
    | zero => exact ⟨s, rfl⟩
    | succ bound => simpa [run_succ_of_next bound h, hs] using hd bound

/-- A state that steps to itself, and at which a run does not stop, diverges (R101, R124). -/
theorem runDiverges_of_fixed {s : State} (h : step s = .next s) (hs : s.runStops = false) : s.RunDiverges := by
  intro bound
  induction bound with
  | zero => exact ⟨s, rfl⟩
  | succ bound ih => simpa [run_succ_of_next bound h, hs] using ih

/-- A network that activates an instance whose run diverges never finishes (R124). -/
theorem network_runDiverges {n : Network} {s : State} (hn : n.halted.length < n.insts.length)
    (hs : n.insts[n.cursor]? = some s) (hh : s.status ≠ .halted) (hd : (s.pushInput n.signal).RunDiverges) :
    n.RunDiverges := by
  intro steps rounds
  obtain ⟨t, ht⟩ := hd steps
  cases rounds with
  | zero => simp [Network.run, hn]
  | succ rounds => simp [Network.run, hn, Network.turn, hs, hh, ht]

end Sys2Proof.Machine
end

