-- ==== Sys2Proof/Tests/Slice0.lean ====
section
/-! SUPPORT. Tests whose expected results come from the spec (95_test_vectors.md and the worked examples of the rules),
smoke tests of the well-formedness checks, words written out digit by digit, and, for each statement that has hypotheses,
a witness that meets them, clause by clause. -/

namespace Sys2Proof.Tests

open Sys2Proof.Machine

/-- A state created from an image under the default parameters, with no input. -/
def st (image : List Int) : State := State.create Config.standard image []

/-- The same with input. -/
def stIn (image initial : List Int) : State := State.create Config.standard image initial

/-- The default parameters with `OVERFLOW_POLICY = wrap`. -/
def wrapping : Config := { Config.standard with overflow := .wrap }

/-- The default parameters with `EXTRA_DIGIT_POLICY = ignore`. -/
def ignoring : Config := { Config.standard with extraDigits := .ignore }

/-- The next state, if there is one. -/
def nextOf (o : Host.Outcome State Fault Refusal) : Option State :=
  match o with
  | .next t => some t
  | .fault _ => none
  | .refused _ => none

/-- Why a step stops, if it does. -/
def stopOf (o : Host.Outcome State Fault Refusal) : Option Fault :=
  match o with
  | .next _ => none
  | .fault r => some r
  | .refused _ => none

/-- Kind and detail of the fault a first step latches. -/
def faultOf (s : State) : Option (FaultKind × Detail) :=
  (nextOf (step s)).bind fun t => t.fault.map fun r => (r.kind, r.detail)

/-- A field of the state after one step. -/
def afterStep {α : Type} (s : State) (f : State → α) : Option α := (nextOf (step s)).map f

/-! ## Words of the spec's encoding -/

/-- V1: `1` is `C B A O O = 0 0 0 0 1`. -/
theorem test_decode_add : decode Config.standard 1 = .ok (.add .position .position .position) := by decide

/-- R55: `1002`. -/
theorem test_decode_mul : decode Config.standard 1002 = .ok (.mul .position .immediate .position) := by decide

/-- R75: `10103` has `A = 1`, `B = 0`, `C = 1`. -/
theorem test_decode_input : decode Config.standard 10103 = .ok (.input .immediate .position .immediate) := by decide

/-- V1: `104`. -/
theorem test_decode_output : decode Config.standard 104 = .ok (.output .immediate .position .position) := by decide

/-- V1: `1105`. -/
theorem test_decode_jumpIfTrue :
    decode Config.standard 1105 = .ok (.jumpIfTrue .immediate .immediate .position) := by decide

/-- R78: `106` has `A = 1` only. -/
theorem test_decode_jumpIfFalse :
    decode Config.standard 106 = .ok (.jumpIfFalse .immediate .position .position) := by decide

/-- R79: `11007` has `B = 1`, `C = 1`. -/
theorem test_decode_lessThan :
    decode Config.standard 11007 = .ok (.lessThan .position .immediate .immediate) := by decide

/-- V1: `10008`. -/
theorem test_decode_equals : decode Config.standard 10008 = .ok (.equals .position .position .immediate) := by decide

/-- V1: `11199`. -/
theorem test_decode_halt : decode Config.standard 11199 = .ok (.halt .immediate .immediate .immediate) := by decide

/-- 95_test_vectors.md, "Decode": the rejected words and their details. -/
theorem test_decode_rejects :
    [(299 : Int), 222, 20004, 30299, 0, 98, -1, 100001].map (decode Config.standard) =
      [.error (.badMode 1 2), .error (.badMode 1 2), .error (.badMode 3 2), .error (.badMode 1 2),
       .error (.badOpcode 0), .error (.badOpcode 98), .error (.conversionError (-1)), .error (.extraDigits 1)] := by
  decide

/-- The word of the table's row `output`, as the host numbers it. -/
theorem test_table_word : decodeTableWord 8 4 = some (.output .position .position .position) := by decide

/-- R66: no two rows of the opcode map share an opcode. -/
theorem test_opcode_rows_distinct : (opcodeTable.map Opcode.number).Nodup := by decide

/-- The placed word runs as the first instruction after reset: `out [0]` appends the word 4 at index 0 (R76). -/
theorem test_table_word_runs : afterStep (State.reset.withFetchWord 8 4) (fun t => (t.outlog, t.pc)) = some ([4], 2) := by
  decide

/-! ## Well-formedness refuses what is ill formed -/

theorem test_wf_refuses_operand_count : (Line.instr .add [.cell 1, .cell 2]).operandCountOk = false := by decide

theorem test_wf_refuses_operand_word : (Line.instr .output [.literal 2147483648]).wordsOk Config.standard = false := by
  decide

theorem test_wf_refuses_data_word : (Line.data [-2147483649]).wf Config.standard = false := by decide

theorem test_wf_refuses_image : allWords Config.standard [1, 2147483648] = false := by decide

/-- R70's example: `mul [4], #3, [4]` is `1002, 4, 3, 4`. -/
theorem test_assemble : assemble [.instr .mul [.cell 4, .literal 3, .cell 4], .data [33]] = [1002, 4, 3, 4, 33] := by
  decide

/-! ## One step of each instruction -/

theorem test_add : afterStep (st [1, 5, 6, 7, 99, 30, 12, 0]) (fun t => (t.mem[7]?, t.pc, t.status)) =
    some (some 42, 4, .running) := by decide

theorem test_add_overflow : faultOf (st [1101, 2147483647, 1, 5, 99, 0]) = some (.overflow, .value 2147483648) := by
  decide

theorem test_mul : afterStep (st [1002, 4, 3, 4, 33]) (fun t => (t.mem, t.pc)) = some ([1002, 4, 3, 4, 99], 4) := by
  decide

theorem test_mul_wraps : afterStep (State.create wrapping [1102, -1, -2147483648, 5, 99, 0] []) (fun t => t.mem[5]?) =
    some (some (-2147483648)) := by decide

theorem test_input : afterStep (stIn [3, 3, 99, 0] [-9]) (fun t => (t.mem, t.pc, t.inq)) =
    some ([3, 3, 99, -9], 2, []) := by decide

theorem test_input_suspends : afterStep (st [3, 3, 99, 0]) (fun t => (t.mem, t.pc, t.status, t.fault)) =
    some ([3, 3, 99, 0], 0, .waitingForInput, none) := by decide

theorem test_output : afterStep (st [4, 3, 99, 17]) (fun t => (t.outlog, t.pc)) = some ([17], 2) := by decide

theorem test_output_missing_slot : faultOf (st [104]) = some (.addressError, .value 1) := by decide

theorem test_jumpIfTrue : afterStep (st [1105, -1, 4, 99, 99]) (fun t => t.pc) = some 4 := by decide

theorem test_jumpIfTrue_negative_target : faultOf (st [1105, 1, -3, 99]) = some (.conversionError, .value (-3)) := by
  decide

theorem test_jumpIfFalse : afterStep (st [1106, 0, 4, 99, 99]) (fun t => t.pc) = some 4 := by decide

theorem test_jumpIfFalse_not_taken : afterStep (st [1106, -1, 4, 99, 99]) (fun t => t.pc) = some 3 := by decide

theorem test_lessThan_signed : afterStep (st [1107, -5, 3, 5, 99, 9]) (fun t => t.mem[5]?) = some (some 1) := by decide

theorem test_lessThan_order : afterStep (st [1107, 4, 3, 5, 99, 9]) (fun t => t.mem[5]?) = some (some 0) := by decide

theorem test_equals : afterStep (st [1108, -2, -2, 5, 99, 9]) (fun t => t.mem[5]?) = some (some 1) := by decide

theorem test_equals_own_slot : afterStep (st [8, 1, 2, 1, 99]) (fun t => (t.mem, t.pc)) = some ([8, 0, 2, 1, 99], 4) := by
  decide

theorem test_halt : afterStep (st [11199]) (fun t => (t.status, t.pc, stopOf (step t))) =
    some (.halted, 0, some .noStepHalted) := by decide

/-- R107: the first step of an image of length 0; the record has no word. -/
theorem test_empty_image : afterStep State.reset (fun t => (t.status, t.fault)) =
    some (.running, some ⟨.addressError, 2, 0, none, .value 0⟩) := by decide

/-- 95_test_vectors.md, "Decode": the extra digit under policy `ignore`. -/
theorem test_extra_digits_ignored :
    afterStep (State.create ignoring [100001, 0, 0, 0, 99] []) (fun t => (t.mem[0]?, t.pc)) = some (some 200002, 4) := by
  decide

/-! ## Loader and host protocol -/

/-- R105: whitespace around the text and the pieces, a sign, and R106: an empty piece and a value that is no word. -/
theorem test_loader :
    loadImage Config.standard [' ', '1', ',', ' ', '-', '2', ',', '+', '3', '\n'] = .ok [1, -2, 3] ∧
    loadImage Config.standard ['1', ','] = .error (.notAToken 1) ∧
    loadImage Config.standard [] = .error (.notAToken 0) ∧
    loadImage Config.standard ['2', '1', '4', '7', '4', '8', '3', '6', '4', '8'] = .error (.outOfRange 0 2147483648) := by
  decide

/-- R119: the orders of three phases, lexicographic. -/
theorem test_phase_orders :
    phaseOrders [2, 0, 1] = [[0, 1, 2], [0, 2, 1], [1, 0, 2], [1, 2, 0], [2, 0, 1], [2, 1, 0]] := by decide

/-! ## Witnesses: concrete data that meet the hypotheses of each statement, clause by clause -/

theorem witness_CreationCopiesTheImage : ([7, 8] : List Int)[1]? = some 8 := by decide

/-- A step that answers a next state: for the statements about every step (MemoryLengthNeverChanges,
ParametersNeverChange, StatusFollowsTheTransitionTable from NotStarted). -/
theorem witness_step : (nextOf (step (st [99]))).isSome = true := by decide

theorem witness_WrapReducesIntoTheWordRange : wrapping.isWord 2147483647 = true := by decide

theorem witness_MemReadChecksTheIndex :
    ((0 : Int) ≤ 1 ∧ (1 : Int) < ([7, 8] : Memory).length) ∧ ((-1 : Int) < 0) ∧
      ((([7, 8] : Memory).length : Int) ≤ 2) := by decide

theorem witness_MemWriteChangesOneCell :
    ((0 : Int) ≤ 1 ∧ (1 : Int) < ([7, 8] : Memory).length ∧ (0 : Int) ≠ 1) ∧
      ((([7, 8] : Memory).length : Int) ≤ 2) ∧ writeTarget (st [1, 0, 0, 3]) 3 .position = .ok 3 := by decide

theorem witness_ReadOperandFollowsTheMode :
    memRead (st [4, 1]).mem (((st [4, 1]).pc + 1 : Nat) : Int) = .ok 1 ∧
    (memRead (st [4, 2]).mem (((st [4, 2]).pc + 1 : Nat) : Int) = .ok 2 ∧ ((st [4, 2]).mem.length : Int) ≤ 2) ∧
    (st [4]).mem.length ≤ (st [4]).pc + 1 := by decide

theorem witness_WriteTargetFollowsTheMode :
    (st [3, 1]).pc + 1 < (st [3, 1]).mem.length ∧
    (memRead (st [3, 1]).mem (((st [3, 1]).pc + 1 : Nat) : Int) = .ok 1 ∧ 1 < (st [3, 1]).mem.length) ∧
    (memRead (st [3, -1]).mem (((st [3, -1]).pc + 1 : Nat) : Int) = .ok (-1) ∧ (-1 : Int) < 0) ∧
    (st [3]).mem.length ≤ (st [3]).pc + 1 := by decide

theorem witness_ImmediateDestinationWritesItsSlot :
    (st [11101, 2, 3, 0]).pc + 3 < (st [11101, 2, 3, 0]).mem.length ∧
    (Opcode.input.instr .immediate .position .position).destination = some (1, .immediate) := by decide

theorem witness_NegativeWordIsConversionError : (-1 : Int) < 0 := by decide

theorem witness_DecodeRejectsInOrder :
    (2 ≤ 222 / 100 % 10) ∧ (2101 / 100 % 10 < 2 ∧ 2 ≤ 2101 / 1000 % 10) ∧
    (20001 / 100 % 10 < 2 ∧ 20001 / 1000 % 10 < 2 ∧ 2 ≤ 20001 / 10000 % 10) ∧
    (100001 / 100 % 10 < 2 ∧ 100001 / 1000 % 10 < 2 ∧ 100001 / 10000 % 10 < 2 ∧ 100000 ≤ 100001) ∧
    (98 / 100 % 10 < 2 ∧ 98 / 1000 % 10 < 2 ∧ 98 / 10000 % 10 < 2 ∧ 98 < 100000 ∧
      98 % 100 ∉ [1, 2, 3, 4, 5, 6, 7, 8, 99]) := by decide

theorem witness_EncodeInvertsDecode :
    (decode Config.standard 11199 = .ok (.halt .immediate .immediate .immediate) ∧
      Config.standard.extraDigits = .fault) ∧
    (decode ignoring 100001 = .ok (.add .position .position .position) ∧ ignoring.extraDigits = .ignore) := by decide

theorem witness_AssembledLineDecodes :
    (Line.instr .jumpIfTrue [.literal 1, .cell 4]).wf Config.standard = true ∧
    ([.literal 1, .cell 4] : List Operand)[1]? = some (.cell 4) := by decide

theorem witness_StepRunsTheDecodedInstruction :
    (st [99]).fault = none ∧ (st [99]).status ≠ .halted ∧
    ¬ ((st [99]).status = .waitingForInput ∧ (st [99]).inq = []) ∧
    memRead (st [99]).mem ((st [99]).pc : Int) = .ok 99 ∧
    decode (st [99]).config 99 = .ok (.halt .position .position .position) := by decide

theorem witness_StepTakesFetchAndDecodeFaults :
    ((st []).fault = none ∧ (st []).status ≠ .halted ∧ ¬ ((st []).status = .waitingForInput ∧ (st []).inq = []) ∧
      (st []).mem.length ≤ (st []).pc) ∧
    ((st [0]).fault = none ∧ (st [0]).status ≠ .halted ∧ ¬ ((st [0]).status = .waitingForInput ∧ (st [0]).inq = []) ∧
      memRead (st [0]).mem ((st [0]).pc : Int) = .ok 0 ∧ decode (st [0]).config 0 = .error (.badOpcode 0)) := by decide

theorem witness_FaultedInstanceHasNoStep : ((st [0]).enterFault (.badOpcode 0)).fault ≠ none := by decide

/-- Each side of NoStepExactlyWhen is met by some state. -/
theorem witness_NoStepExactlyWhen :
    stopOf (step ((st [0]).enterFault (.badOpcode 0))) = some .noStepFaulted ∧
    stopOf (step { st [99] with status := .halted }) = some .noStepHalted ∧
    stopOf (step { st [3, 0] with status := .waitingForInput }) = some .noStepWaiting ∧
    (nextOf (step { stIn [3, 0] [5] with status := .waitingForInput })).isSome = true := by decide

/-- The rows of the transition table: a fault, a halt, a suspension, a completion and a retry. -/
theorem witness_StatusFollowsTheTransitionTable :
    afterStep (st [0]) (fun t => (t.fault.isSome, t.status)) = some (true, .running) ∧
    afterStep (st [99]) (fun t => (t.fault, t.status)) = some (none, .halted) ∧
    afterStep (st [3, 0]) (fun t => (t.fault, t.status)) = some (none, .waitingForInput) ∧
    afterStep (st [104, 1]) (fun t => (t.fault, t.status)) = some (none, .running) ∧
    afterStep { stIn [3, 0] [5] with status := .waitingForInput } (fun t => (t.fault, t.status)) =
      some (none, .running) := by decide

/-- The operand hypotheses of the four-word statements at the word `x01`, with the operands `a` and `b` immediate. -/
theorem witness_AddMeaning :
    (readOperand (st [1101, 2147483647, 0, 0]) 1 .immediate = .ok 2147483647 ∧
      readOperand (st [1101, 2147483647, 0, 0]) 2 .immediate = .ok 0 ∧
      writeTarget (st [1101, 2147483647, 0, 0]) 3 .position = .ok 0 ∧
      Config.standard.wmin ≤ 2147483647 + 0 ∧ 2147483647 + 0 ≤ Config.standard.wmax) ∧
    (readOperand (State.create wrapping [1101, 2147483647, 1, 0] []) 1 .immediate = .ok 2147483647 ∧
      readOperand (State.create wrapping [1101, 2147483647, 1, 0] []) 2 .immediate = .ok 1 ∧
      writeTarget (State.create wrapping [1101, 2147483647, 1, 0] []) 3 .position = .ok 0 ∧
      wrapping.wmax < 2147483647 + 1 ∧ wrapping.overflow = .wrap) ∧
    readOperand (st [1]) 1 .immediate = .error (.addressError 1) ∧
    (readOperand (st [1001, 0]) 1 .position = .ok 1001 ∧
      readOperand (st [1001, 0]) 2 .immediate = .error (.addressError 2)) ∧
    (readOperand (st [1101, -2147483648, -1]) 1 .immediate = .ok (-2147483648) ∧
      readOperand (st [1101, -2147483648, -1]) 2 .immediate = .ok (-1) ∧
      -2147483648 + -1 < Config.standard.wmin ∧ Config.standard.overflow = .fault) ∧
    (readOperand (st [1101, 1, 1]) 1 .immediate = .ok 1 ∧ readOperand (st [1101, 1, 1]) 2 .immediate = .ok 1 ∧
      (Config.standard.wmin ≤ 1 + 1 ∧ 1 + 1 ≤ Config.standard.wmax) ∧
      writeTarget (st [1101, 1, 1]) 3 .position = .error (.addressError 3)) := by decide

theorem witness_MulMeaning :
    (readOperand (st [1102, 2147483647, -1, 0]) 1 .immediate = .ok 2147483647 ∧
      readOperand (st [1102, 2147483647, -1, 0]) 2 .immediate = .ok (-1) ∧
      writeTarget (st [1102, 2147483647, -1, 0]) 3 .position = .ok 0 ∧
      Config.standard.wmin ≤ 2147483647 * -1 ∧ 2147483647 * -1 ≤ Config.standard.wmax) ∧
    (readOperand (State.create wrapping [1102, -1, -2147483648, 0] []) 1 .immediate = .ok (-1) ∧
      readOperand (State.create wrapping [1102, -1, -2147483648, 0] []) 2 .immediate = .ok (-2147483648) ∧
      writeTarget (State.create wrapping [1102, -1, -2147483648, 0] []) 3 .position = .ok 0 ∧
      wrapping.wmax < -1 * -2147483648 ∧ wrapping.overflow = .wrap) ∧
    readOperand (st [2, 9]) 1 .position = .error (.addressError 9) ∧
    (readOperand (st [102, 5]) 1 .immediate = .ok 5 ∧
      readOperand (st [102, 5]) 2 .position = .error (.addressError 2)) ∧
    (readOperand (st [1102, 65536, 32768]) 1 .immediate = .ok 65536 ∧
      readOperand (st [1102, 65536, 32768]) 2 .immediate = .ok 32768 ∧
      Config.standard.wmax < 65536 * 32768 ∧ Config.standard.overflow = .fault) ∧
    (readOperand (st [1102, 3, 5, -1]) 1 .immediate = .ok 3 ∧ readOperand (st [1102, 3, 5, -1]) 2 .immediate = .ok 5 ∧
      (Config.standard.wmin ≤ 3 * 5 ∧ 3 * 5 ≤ Config.standard.wmax) ∧
      writeTarget (st [1102, 3, 5, -1]) 3 .position = .error (.addressError (-1))) := by decide

theorem witness_LessThanMeaning :
    (readOperand (st [1107, -5, 3, 0]) 1 .immediate = .ok (-5) ∧ readOperand (st [1107, -5, 3, 0]) 2 .immediate = .ok 3 ∧
      writeTarget (st [1107, -5, 3, 0]) 3 .position = .ok 0) ∧
    readOperand (st [7]) 1 .position = .error (.addressError 1) ∧
    (readOperand (st [107, 5]) 1 .immediate = .ok 5 ∧
      readOperand (st [107, 5]) 2 .position = .error (.addressError 2)) ∧
    (readOperand (st [1107, 3, 5]) 1 .immediate = .ok 3 ∧ readOperand (st [1107, 3, 5]) 2 .immediate = .ok 5 ∧
      writeTarget (st [1107, 3, 5]) 3 .position = .error (.addressError 3)) ∧
    ((st [7]).fault = none ∧
      ((nextOf (exec (.lessThan .position .position .position) (st [7]))).bind State.fault).isSome = true) := by decide

theorem witness_EqualsMeaning :
    (readOperand (st [1108, -2, -2, 0]) 1 .immediate = .ok (-2) ∧
      readOperand (st [1108, -2, -2, 0]) 2 .immediate = .ok (-2) ∧
      writeTarget (st [1108, -2, -2, 0]) 3 .position = .ok 0) ∧
    readOperand (st [8]) 1 .position = .error (.addressError 1) ∧
    (readOperand (st [108, 5]) 1 .immediate = .ok 5 ∧
      readOperand (st [108, 5]) 2 .position = .error (.addressError 2)) ∧
    (readOperand (st [1108, 3, 5]) 1 .immediate = .ok 3 ∧ readOperand (st [1108, 3, 5]) 2 .immediate = .ok 5 ∧
      writeTarget (st [1108, 3, 5]) 3 .position = .error (.addressError 3)) ∧
    ((st [8]).fault = none ∧
      ((nextOf (exec (.equals .position .position .position) (st [8]))).bind State.fault).isSome = true) := by decide

theorem witness_InputMeaning :
    (writeTarget (stIn [3, 1] [-9, 4]) 1 .position = .ok 1 ∧ (stIn [3, 1] [-9, 4]).inq = -9 :: [4]) ∧
    (writeTarget (st [103, 0]) 1 .immediate = .ok 1 ∧ (st [103, 0]).inq = []) ∧
    writeTarget (st [3, 50]) 1 .position = .error (.addressError 50) := by decide

theorem witness_EmptyQueueSuspendsWithoutFault :
    (st [3, 1]).fault = none ∧ (st [3, 1]).inq = [] ∧ writeTarget (st [3, 1]) 1 .position = .ok 1 := by decide

theorem witness_OutputMeaning :
    readOperand (st [104, -42]) 1 .immediate = .ok (-42) ∧
    readOperand (st [4, 7, 99]) 1 .position = .error (.addressError 7) := by decide

theorem witness_JumpIfTrueMeaning :
    (readOperand (st [1105, -1, 0]) 1 .immediate = .ok (-1) ∧ readOperand (st [1105, -1, 0]) 2 .immediate = .ok 0) ∧
    (readOperand (st [1105, 0, -3]) 1 .immediate = .ok 0 ∧ readOperand (st [1105, 0, -3]) 2 .immediate = .ok (-3)) ∧
    readOperand (st [1105]) 1 .immediate = .error (.addressError 1) ∧
    (readOperand (st [1105, 1]) 1 .immediate = .ok 1 ∧
      readOperand (st [1105, 1]) 2 .immediate = .error (.addressError 2)) ∧
    (readOperand (st [1105, 1, -1]) 1 .immediate = .ok 1 ∧ readOperand (st [1105, 1, -1]) 2 .immediate = .ok (-1) ∧
      (1 : Int) ≠ 0 ∧ (-1 : Int) < 0) := by decide

theorem witness_JumpIfFalseMeaning :
    (readOperand (st [1106, 0, 0]) 1 .immediate = .ok 0 ∧ readOperand (st [1106, 0, 0]) 2 .immediate = .ok 0) ∧
    (readOperand (st [1106, -1, -3]) 1 .immediate = .ok (-1) ∧ readOperand (st [1106, -1, -3]) 2 .immediate = .ok (-3) ∧
      (-1 : Int) ≠ 0) ∧
    readOperand (st [1106]) 1 .immediate = .error (.addressError 1) ∧
    (readOperand (st [1106, 1]) 1 .immediate = .ok 1 ∧
      readOperand (st [1106, 1]) 2 .immediate = .error (.addressError 2)) ∧
    (readOperand (st [1106, 0, -1]) 1 .immediate = .ok 0 ∧ readOperand (st [1106, 0, -1]) 2 .immediate = .ok (-1) ∧
      (-1 : Int) < 0) := by decide

/-- For the frame statements: a storing instruction whose target resolves, one whose target does not, and one that
stores nothing. -/
theorem witness_MemoryChangesOnlyAtTheTarget :
    ((nextOf (exec (.input .position .position .position) (stIn [3, 1] [5]))).isSome = true ∧
      (Instr.input .position .position .position).destination = some (1, .position) ∧
      writeTarget (stIn [3, 1] [5]) 1 .position = .ok 1 ∧ (0 : Int) ≠ 1) ∧
    ((nextOf (exec (.add .immediate .immediate .position) (st [1101, 1, 1]))).isSome = true ∧
      (Instr.add .immediate .immediate .position).destination = some (3, .position) ∧
      writeTarget (st [1101, 1, 1]) 3 .position = .error (.addressError 3)) ∧
    ((nextOf (exec (.output .immediate .position .position) (st [104, 7]))).isSome = true ∧
      (Instr.output .immediate .position .position).destination = none) := by decide

/-- For EveryOtherElementIsKept: an instruction that is neither input, output nor halt, an input and a halt. -/
theorem witness_EveryOtherElementIsKept :
    ((nextOf (exec (.equals .immediate .immediate .immediate) (st [11108, 1, 1, 0]))).isSome = true ∧
      (Instr.equals .immediate .immediate .immediate).opcode ≠ .input ∧
      (Instr.equals .immediate .immediate .immediate).opcode ≠ .output ∧
      (Instr.equals .immediate .immediate .immediate).opcode ≠ .halt) ∧
    ((nextOf (exec (.input .immediate .position .position) (st [103, 0]))).isSome = true ∧
      (Instr.input .immediate .position .position).opcode = .input) := by decide

theorem witness_InputQueueIsFifo :
    (stIn [3, 1] [5]).fetchDecode = .ok (.input .position .position .position) ∧
    afterStep (stIn [3, 1] [5]) (fun t => (t.fault, t.status)) = some (none, .running) := by decide

theorem witness_OutputLogIsAppendOnly :
    (st [104, 7]).fetchDecode = .ok (.output .immediate .position .position) ∧
    afterStep (st [104, 7]) (fun t => (t.fault, t.outlog)) = some (none, [7]) := by decide

theorem witness_NoInstructionReadsStatus :
    (nextOf (exec (.jumpIfTrue .immediate .immediate .position) (st [1105, 1, 2]))).isSome = true := by decide

theorem witness_QueueTailAndLogAreNotRead :
    (nextOf (exec (.input .position .position .position) (stIn [3, 1] [5]))).isSome = true ∧
      (stIn [3, 1] [5]).inq ≠ [] := by decide

/-- For FaultsArePrecise and the three statements on fault kinds: one step of each kind. -/
theorem witness_faults :
    faultOf (st [98]) = some (.decodeError, .badOpcode 98) ∧
    faultOf (st [1101, 1, 1, 9, 99]) = some (.addressError, .value 9) ∧
    faultOf (st [-1]) = some (.conversionError, .value (-1)) ∧
    faultOf (st [1106, 0, -3]) = some (.conversionError, .value (-3)) ∧
    faultOf (st [1102, 46341, 46341, 5, 99, 0]) = some (.overflow, .value 2147488281) := by decide

theorem witness_CreatedStateIsValid :
    allWords Config.standard [2147483647, -2147483648] = true ∧ allWords Config.standard [5] = true := by decide

/-- A valid state that is suspended and has been given input: for the invariant statements and the retry. -/
theorem witness_Inv : ({ stIn [3, 1] [5] with status := .waitingForInput } : State).Inv :=
  { mem_wf := by decide
    inq_words := by decide
    outlog_words := by decide
    fault_running := by intro h; simp [stIn] at h
    fault_record := by intro r h; simp [stIn] at h
    waiting_input := fun _ => ⟨.position, .position, .position, 1, by decide, by decide⟩ }

theorem witness_StepKeepsTheInvariant :
    (nextOf (step { stIn [3, 1] [5] with status := .waitingForInput })).isSome = true := by decide

theorem witness_PushKeepsTheInvariant : Config.standard.isWord (-2147483648) = true := by decide

theorem witness_EveryReachedStateIsValid : Reached (stIn [3, 1] [5]) :=
  .create Config.standard [3, 1] [5] (by decide) (by decide)

theorem witness_RetryOfASuspendedInputCompletes :
    ({ stIn [3, 1] [5] with status := .waitingForInput } : State).Inv ∧
    ({ stIn [3, 1] [5] with status := .waitingForInput } : State).status = .waitingForInput ∧
    ({ stIn [3, 1] [5] with status := .waitingForInput } : State).inq = 5 :: [] := ⟨witness_Inv, rfl, rfl⟩

theorem witness_ReturnedRunHasEnded :
    (st [99]).run 1 = .returned { st [99] with status := .halted } := by decide

/-- The four ways in which a run ends (R112): a halt, an empty queue, a negative word, and a jump to itself. -/
theorem test_run_completes : (st [99]).RunEndsIn .completed :=
  ⟨1, { st [99] with status := .halted }, by decide, by decide⟩

theorem test_run_suspends : (st [3, 0]).RunEndsIn .suspended :=
  ⟨1, { st [3, 0] with status := .waitingForInput }, by decide, by decide⟩

theorem test_run_fails : (st [-1]).RunEndsIn .failed :=
  ⟨1, (st [-1]).enterFault (.conversionError (-1)), by decide, by decide⟩

theorem test_run_diverges : (st [1106, 0, 0]).RunEndsIn .diverged :=
  (runDiverges_of_next (t := { st [1106, 0, 0] with status := .running }) rfl (by decide)).2
    (runDiverges_of_fixed rfl (by decide))

theorem witness_SafeRun : SafeRun 1 (st [99]) :=
  ⟨{ st [99] with status := .halted }, by decide, by decide⟩

theorem witness_RunDoesNotDependOnTheBound :
    (st [3, 0]).run 1 = .returned { st [3, 0] with status := .waitingForInput } := by decide

theorem witness_LoadedImageIsWellFormed : loadImage Config.standard ['4', ',', '-', '5'] = .ok [4, -5] := by decide

theorem witness_PlacedInstructionIsFetchedNext :
    (wordsOfBits (st []).config 8 4 4)[3]? = some 0 ∧
    decodeTableWord 8 99 = some (.halt .position .position .position) := by decide

/-- A network of one instance that has halted, one that halts, and one that faults. -/
def oneInstance (s : State) : Network := { insts := [s], cursor := 0, halted := [], signal := 7 }

theorem witness_HaltedInstanceIsSkipped :
    (oneInstance { st [99] with status := .halted }).insts[0]? = some { st [99] with status := .halted } := by decide

theorem witness_TurnTouchesOnlyItsInstance :
    (oneInstance (st [104, 5, 99])).turn 3 =
      .went
        { insts := [{ st [104, 5, 99] with pc := 2, status := .halted, inq := [7], outlog := [5] }]
          cursor := 0
          halted := [0]
          signal := 5 } := by decide

theorem witness_ActivationHandsTheSignalOn :
    (oneInstance (st [104, 5, 99])).insts[0]? = some (st [104, 5, 99]) ∧ (st [104, 5, 99]).status ≠ .halted ∧
    ((st [104, 5, 99]).pushInput 7).run 3 =
      .returned { st [104, 5, 99] with pc := 2, status := .halted, inq := [7], outlog := [5] } ∧
    ((st [3, 0, 3, 0]).pushInput 7).run 3 =
      .returned { st [7, 0, 3, 0] with pc := 2, status := .waitingForInput } := by decide

theorem witness_FaultAbortsTheNetwork :
    (oneInstance (st [98])).halted.length < (oneInstance (st [98])).insts.length ∧
    ((st [98]).pushInput 7).run 1 =
      .returned
        { st [98] with
          status := .running, inq := [7], fault := some ⟨.decodeError, 1, 0, some 98, .badOpcode 98⟩ } := by decide

theorem witness_PhaseSearchFindsTheFirstMaximum :
    phaseSearch Config.standard 3 1 [104, 5, 99] [2] 0 = .best (some (5, [2])) := by decide

/-- The instance outputs the signal it is given: the search that is given none is run with 0 (R119, D24). -/
theorem test_default_signal : phaseSearch Config.standard 4 1 [3, 0, 3, 0, 4, 0, 99] [2] = .best (some (0, [2])) := by
  decide

theorem witness_PhaseOrdersAreThePermutations : ([2, 0, 1] : List Int).Nodup := by decide

end Sys2Proof.Tests
end

/-! ## Proofs: the length of memory (00_scope.md R7) -/
section
namespace Sys2Proof.Machine

/-- Two shapes of effect write a cell, which keeps the length; the other five leave memory itself as it was. -/
theorem Effect.mem_length {s t : State} {i : Instr} (h : Effect s i t) : t.mem.length = s.mem.length := by
  cases h with
  | stored => exact List.length_set
  | received => exact List.length_set
  | faulted | suspended | emitted | jumped | halted => rfl

theorem step_mem_length {s t : State} (h : step s = .next t) : t.mem.length = s.mem.length := by
  obtain ⟨-, ⟨k, -, rfl⟩ | ⟨i, -, hexec⟩⟩ := step_next h
  · rw [State.enterFault_mem]
  · simpa using (exec_effect hexec).mem_length

/-- Settles O3: of creation and push by their memory fields, of a step by the shapes of effect it can have. -/
theorem memoryLengthNeverChanges : Obligations.MemoryLengthNeverChanges := by
  refine ⟨fun c image initial => ?_, fun _ _ => step_mem_length, fun s v => ?_⟩
  · rw [State.create_mem]
  · rw [State.pushInput_mem]

end Sys2Proof.Machine
end

/-! ## Proofs: creation from an image, and the input queue (10_state.md R21, R25, R27) -/
section
namespace Sys2Proof.Machine

/-- Settles O1: the memory that creation gives is the image, so a checked read at an index of the image answers the
image's value there. -/
theorem creationCopiesTheImage : Obligations.CreationCopiesTheImage := by
  intro c image initial
  refine ⟨?_, fun a v hv => ?_, State.create_status c image initial⟩
  · rw [State.create_mem]
  · rw [State.create_mem, memRead_ok_iff, Int.toNat_natCast]
    exact ⟨Int.natCast_nonneg a, hv⟩

/-- Receiving is the one shape of effect that touches the queue; it neither latches a fault nor writes `status`. -/
theorem Effect.inq_kept_or_received {s t : State} {i : Instr} (h : Effect s i t) :
    t.inq = s.inq ∨
      ∃ (v : Int) (m1 m2 m3 : Mode), s.inq = v :: t.inq ∧ i = .input m1 m2 m3 ∧
        t.fault = s.fault ∧ t.status = s.status := by
  cases h with
  | received m1 m2 m3 d v rest hd hq => exact .inr ⟨v, m1, m2, m3, hq, rfl, rfl, rfl⟩
  | faulted | stored | suspended | emitted | jumped | halted => exact .inl rfl

/-- An input that neither faults nor suspends has received: of the other shapes that an instruction of any opcode may
have, a store has destination parameter 3 and a jump another opcode. -/
theorem Effect.input_removes_head {s t : State} {m1 m2 m3 : Mode} (h : Effect s (.input m1 m2 m3) t)
    (hfault : t.fault = none) (hrunning : t.status = .running) : ∃ v : Int, s.inq = v :: t.inq := by
  cases h with
  | received _ _ _ d v rest hd hq => exact ⟨v, hq⟩
  | faulted _ k hk => simp at hfault
  | suspended => cases hrunning
  | stored _ m d v hi => simp [Instr.destination] at hi
  | jumped _ p hi => simp [Instr.opcode] at hi

/-- A step at a word that decodes runs the decoded instruction. -/
theorem exec_of_step {s t : State} {i : Instr} (h : step s = .next t) (hi : s.fetchDecode = .ok i) :
    exec i s.begin = .next t := by
  obtain ⟨-, ⟨k, hk, -⟩ | ⟨j, hj, hexec⟩⟩ := step_next h
  · rw [hi] at hk
    cases hk
  · rw [hi] at hj
    cases hj
    exact hexec

/-- A step drops at most the head of the queue, and only by an input that completed without a fault. -/
theorem step_inq_kept_or_received {s t : State} (h : step s = .next t) :
    t.inq = s.inq ∨
      ∃ (v : Int) (m1 m2 m3 : Mode), s.inq = v :: t.inq ∧ s.fetchDecode = .ok (.input m1 m2 m3) ∧
        t.fault = none ∧ t.status = .running := by
  obtain ⟨hready, ⟨k, -, rfl⟩ | ⟨i, hi, hexec⟩⟩ := step_next h
  · exact .inl (State.enterFault_inq s k)
  · obtain ⟨hnofault, -, -⟩ := noStep_none hready
    rcases (exec_effect hexec).inq_kept_or_received with hq | ⟨v, m1, m2, m3, hq, rfl, hfault, hstatus⟩
    · exact .inl hq
    · exact .inr ⟨v, m1, m2, m3, hq, hi, hfault.trans hnofault, hstatus⟩

/-- Settles O37: both clauses on steps by the shapes of effect, the clause on a push by its definition. -/
theorem inputQueueIsFifo : Obligations.InputQueueIsFifo := by
  refine ⟨fun s t => step_inq_kept_or_received, fun s t m1 m2 m3 hstep hi hfault hrunning => ?_, fun s v => rfl⟩
  exact (exec_effect (exec_of_step hstep hi)).input_removes_head hfault hrunning

end Sys2Proof.Machine
end

/-! ## Proofs: the checked read and write (20_memory.md R38, R39) -/
section
namespace Sys2Proof.Machine

/-- An index outside memory is AddressError of that index, whatever the value written (R39). -/
theorem memWrite_out_of_range {m : Memory} {a : Int} (v : Int) (h : a < 0 ∨ (m.length : Int) ≤ a) :
    memWrite m a v = .error (.addressError a) := by
  rw [memWrite, if_pos h]

/-- Settles O7: an index in range names a cell, and the read answers that cell; any other index fails the check. -/
theorem memReadChecksTheIndex : Obligations.MemReadChecksTheIndex := by
  intro m a
  refine ⟨fun hnonneg hlt => ?_, fun hout => memRead_error_iff.2 ⟨hout, rfl⟩⟩
  have hcell : m[a.toNat]? = some (m[a.toNat]'(by omega)) := List.getElem?_eq_getElem _
  exact ⟨_, hcell, memRead_ok_iff.2 ⟨hnonneg, hcell⟩⟩

/-- Settles O8: a write in range is `List.set` at the index, of which each clause is a law of `memRead` or of the
length; a resolved destination is in range, so writing it is such a write. -/
theorem memWriteChangesOneCell : Obligations.MemWriteChangesOneCell := by
  refine ⟨fun m a v hnonneg hlt => ?_, fun m a v => memWrite_out_of_range v, fun s i m t v ht => ?_⟩
  · lift a to Nat using hnonneg
    have hin : a < m.length := Int.ofNat_lt.1 hlt
    exact ⟨m.set a v, memWrite_of_lt v hin, List.length_set, memRead_set_same hin, fun j hj => memRead_set_other hj⟩
  · exact ⟨_, memWrite_of_lt v (writeTarget_lt ht)⟩

end Sys2Proof.Machine
end

/-! ## Proofs: operands and destinations by mode (20_memory.md R43, R44) -/
section
namespace Sys2Proof.Machine

/-- A parameter slot at or beyond the end of memory is AddressError of the slot (R42). -/
theorem paramWord_past_end {s : State} {i : Nat} (h : s.mem.length ≤ s.pc + i) :
    paramWord s i = .error (.addressError ((s.pc + i : Nat) : Int)) :=
  memRead_error_iff.2 ⟨.inr (Int.ofNat_le.2 h), rfl⟩

/-- The Immediate operand is the parameter word itself, its fault included (R43). -/
theorem readOperand_immediate (s : State) (i : Nat) : readOperand s i .immediate = paramWord s i := by
  rw [readOperand]
  cases paramWord s i <;> rfl

/-- The Position operand is the checked read at the parameter word (R43). -/
theorem readOperand_position {s : State} {i : Nat} {p : Int} (h : paramWord s i = .ok p) :
    readOperand s i .position = memRead s.mem p := by
  rw [readOperand, h, except_ok_bind]

/-- Both modes read the parameter slot first, so its fault is the operand's fault (R43). -/
theorem readOperand_of_paramWord_error {s : State} {i : Nat} {k : Cause} (m : Mode) (h : paramWord s i = .error k) :
    readOperand s i m = .error k := by
  rw [readOperand, h, except_error_bind]

/-- An Immediate destination whose slot is in memory is the slot (R44). -/
theorem writeTarget_immediate {s : State} {i : Nat} (h : s.pc + i < s.mem.length) :
    writeTarget s i .immediate = .ok (s.pc + i) :=
  checkIndex_ok_iff.2 ⟨rfl, h⟩

/-- The Position destination is the parameter word, checked as an index (R44). -/
theorem writeTarget_position {s : State} {i : Nat} {a : Int} (h : paramWord s i = .ok a) :
    writeTarget s i .position = checkIndex s.mem a := by
  rw [writeTarget, h, except_ok_bind]

/-- A slot outside memory faults in both modes with the same detail: as a destination under Immediate, as a read under
Position (R44). -/
theorem writeTarget_past_end {s : State} {i : Nat} (m : Mode) (h : s.mem.length ≤ s.pc + i) :
    writeTarget s i m = .error (.addressError ((s.pc + i : Nat) : Int)) := by
  cases m with
  | immediate => exact checkIndex_error_iff.2 ⟨.inr (Int.ofNat_le.2 h), rfl⟩
  | position => rw [writeTarget, paramWord_past_end h, except_error_bind]

/-- Settles O9: by the equation of each mode; a bad pointer fails the read it is used for, a bad slot the first read. -/
theorem readOperandFollowsTheMode : Obligations.ReadOperandFollowsTheMode := by
  refine fun s i => ⟨readOperand_immediate s i, fun p => readOperand_position, fun p hp hout => ?_, fun m hend => ?_⟩
  · rw [readOperand_position hp, memRead_error_iff]
    exact ⟨hout, rfl⟩
  · exact readOperand_of_paramWord_error m (paramWord_past_end hend)

/-- Settles O10: by the equation of each mode and what the check of an index answers. -/
theorem writeTargetFollowsTheMode : Obligations.WriteTargetFollowsTheMode := by
  refine fun s i => ⟨writeTarget_immediate, fun t ht hlt => ?_, fun a ha hout => ?_, writeTarget_past_end⟩
  · rw [writeTarget_position ht, checkIndex_ok_iff]
    exact ⟨rfl, hlt⟩
  · rw [writeTarget_position ha, checkIndex_error_iff]
    exact ⟨hout, rfl⟩

end Sys2Proof.Machine
end

/-! ## Proofs: decoding an encoded instruction (30_encoding.md R53, R59, R63) -/
section
namespace Sys2Proof

theorem Opcode.number_lt (op : Opcode) : op.number < 100 := by
  cases op <;> decide

theorem Mode.digit_lt (m : Mode) : m.digit < 10 := by
  cases m <;> decide

theorem modeOfDigit_digit (k : Nat) (m : Mode) : modeOfDigit k m.digit = .ok m := by
  cases m <;> rfl

theorem opcodeOfNumber_number (op : Opcode) : opcodeOfNumber op.number = some op := by
  cases op <;> rfl

theorem Instr.instr_opcode_modes (i : Instr) : i.opcode.instr i.modes.1 i.modes.2.1 i.modes.2.2 = i := by
  cases i <;> rfl

/-- A word of at most five digits has no extra digits, so both policies keep all of it. -/
theorem keptDigits_of_lt {n : Nat} (c : Config) (h : n < 100000) : keptDigits c n = n := by
  rw [keptDigits]
  cases c.extraDigits with
  | fault => rfl
  | ignore => exact Nat.mod_eq_of_lt h

/-- The decimal fields of an encoding, read back where the layout of R53 puts them. -/
theorem encodeDigits_fields {op d1 d2 d3 : Nat} (hop : op < 100) (h1 : d1 < 10) (h2 : d2 < 10) (h3 : d3 < 10) :
    encodeDigits op d1 d2 d3 % 100 = op ∧ digit 2 (encodeDigits op d1 d2 d3) = d1 ∧
      digit 3 (encodeDigits op d1 d2 d3) = d2 ∧ digit 4 (encodeDigits op d1 d2 d3) = d3 ∧
      encodeDigits op d1 d2 d3 < 100000 := by
  simp only [encodeDigits, digit]
  omega

theorem decodeDigits_encodeDigits (op : Opcode) (m1 m2 m3 : Mode) :
    decodeDigits (encodeDigits op.number m1.digit m2.digit m3.digit) = .ok (op.instr m1 m2 m3) := by
  obtain ⟨hop, h1, h2, h3, hlt⟩ := encodeDigits_fields op.number_lt m1.digit_lt m2.digit_lt m3.digit_lt
  simp [decodeDigits, hop, h1, h2, h3, modeOfDigit_digit, opcodeOfNumber_number, Nat.div_eq_of_lt hlt]

/-- An encoding is a non-negative word of at most five digits, whose fields decode to the instruction's opcode and
modes. -/
theorem decode_encode (c : Config) (i : Instr) : decode c (encode i) = .ok i := by
  obtain ⟨-, -, -, -, hlt⟩ := encodeDigits_fields i.opcode.number_lt i.modes.1.digit_lt i.modes.2.1.digit_lt
    i.modes.2.2.digit_lt
  rw [decode, encode, if_neg (Int.not_lt.2 (Int.natCast_nonneg _)), Int.toNat_natCast, keptDigits_of_lt c hlt,
    decodeDigits_encodeDigits, Instr.instr_opcode_modes]

end Sys2Proof
end

/-! ## Proofs: the Immediate destination (20_memory.md R45) -/
section
namespace Sys2Proof.Machine

/-- Settles O11: the destination resolves to the slot, where the result is stored; and every encoding decodes to its
instruction, those with an Immediate destination among them. -/
theorem immediateDestinationWritesItsSlot : Obligations.ImmediateDestinationWritesItsSlot := by
  refine ⟨fun s i v hslot => ?_, fun c op m1 m2 m3 k _ => decode_encode c (op.instr m1 m2 m3)⟩
  exact writeResult_ok_iff.2 ⟨s.pc + i, writeTarget_immediate hslot, rfl⟩

end Sys2Proof.Machine
end

/-! ## Proofs: a negative instruction word (30_encoding.md R54) -/
section
namespace Sys2Proof

/-- The sign of the word is tested before any digit is taken (R54), so neither the digits nor the policy matters. -/
theorem decode_of_neg (c : Config) {w : Int} (hw : w < 0) : decode c w = .error (.conversionError w) := by
  rw [decode, if_pos hw]

end Sys2Proof

namespace Sys2Proof.Machine

/-- Settles O12: by the equation of decoding for a negative word. -/
theorem negativeWordIsConversionError : Obligations.NegativeWordIsConversionError :=
  fun c _ hw => decode_of_neg c hw

end Sys2Proof.Machine
end

/-! ## Proofs: add and mul (40_arithmetic.md R73, R74) -/
section
namespace Sys2Proof

theorem isWord_eq_false_iff {c : Config} {v : Int} : c.isWord v = false ↔ v < c.wmin ∨ c.wmax < v := by
  rw [← Bool.not_eq_true, isWord_iff]
  omega

end Sys2Proof

namespace Sys2Proof.Machine

/-- Only a result outside the word range under policy `fault` fails to become a word (R8). -/
theorem narrow_ok_of_fits_or_wrap {c : Config} {r : Int}
    (h : (c.wmin ≤ r ∧ r ≤ c.wmax) ∨ c.overflow = .wrap) : ∃ v, narrow c r = .ok v := by
  cases hword : c.isWord r with
  | true => exact ⟨r, narrow_ok_iff.2 (.inl ⟨hword, rfl⟩)⟩
  | false =>
    have hwrap : c.overflow = .wrap := h.resolve_left fun hfits => by simp [isWord_iff.2 hfits] at hword
    exact ⟨c.wrapW r, narrow_ok_iff.2 (.inr ⟨hword, hwrap, rfl⟩)⟩

section
variable {s : State} {m1 m2 m3 : Mode} {f : Int → Int → Except Cause Int}

theorem conclude_binary_stores {a b r : Int} {t : Nat} (ha : readOperand s 1 m1 = .ok a)
    (hb : readOperand s 2 m2 = .ok b) (hr : f a b = .ok r) (ht : writeTarget s 3 m3 = .ok t) :
    s.conclude (binary s m1 m2 m3 f) = .next { s with mem := s.mem.set t r, pc := s.pc + 4 } :=
  conclude_next_iff.2 (.inl (binary_ok_iff.2 ⟨a, b, r, t, ha, hb, hr, ht, rfl⟩))

/-- The causes a four-word instruction can raise, in the order of R69: operand 1, operand 2, the computation, the
destination. -/
theorem conclude_binary_faults {k : Cause}
    (h : readOperand s 1 m1 = .error k ∨
      ∃ a, readOperand s 1 m1 = .ok a ∧ (readOperand s 2 m2 = .error k ∨
        ∃ b, readOperand s 2 m2 = .ok b ∧ (f a b = .error k ∨
          ∃ r, f a b = .ok r ∧ writeTarget s 3 m3 = .error k))) :
    s.conclude (binary s m1 m2 m3 f) = .next (s.enterFault k) :=
  conclude_next_iff.2 (.inr ⟨k, binary_error_iff.2 h, rfl⟩)

end

/-- What `add` and `mul` share: the exact result of `op` on operands 1 and 2, made a word by the overflow policy and
written to destination 3. -/
def arithmetic (op : Int → Int → Int) (m1 m2 m3 : Mode) (s : State) : Host.Outcome State Fault Refusal :=
  s.conclude (binary s m1 m2 m3 fun a b => narrow s.config (op a b))

theorem exec_add (m1 m2 m3 : Mode) (s : State) :
    exec (.add m1 m2 m3) s = arithmetic (fun a b => a + b) m1 m2 m3 s := rfl

theorem exec_mul (m1 m2 m3 : Mode) (s : State) :
    exec (.mul m1 m2 m3) s = arithmetic (fun a b => a * b) m1 m2 m3 s := rfl

/-- R73 and R74 but for the encoding, with the operation left open: the result in range, the result wrapped, and the
four exceptions in order. -/
theorem arithmetic_meaning (op : Int → Int → Int) (m1 m2 m3 : Mode) (s : State) :
    (∀ (a b : Int) (t : Nat), readOperand s 1 m1 = .ok a → readOperand s 2 m2 = .ok b → writeTarget s 3 m3 = .ok t →
      s.config.wmin ≤ op a b → op a b ≤ s.config.wmax →
      arithmetic op m1 m2 m3 s = .next { s with mem := s.mem.set t (op a b), pc := s.pc + 4 }) ∧
    (∀ (a b : Int) (t : Nat), readOperand s 1 m1 = .ok a → readOperand s 2 m2 = .ok b → writeTarget s 3 m3 = .ok t →
      op a b < s.config.wmin ∨ s.config.wmax < op a b → s.config.overflow = .wrap →
      arithmetic op m1 m2 m3 s = .next { s with mem := s.mem.set t (s.config.wrapW (op a b)), pc := s.pc + 4 }) ∧
    (∀ k, readOperand s 1 m1 = .error k → arithmetic op m1 m2 m3 s = .next (s.enterFault k)) ∧
    (∀ (a : Int) (k : Cause), readOperand s 1 m1 = .ok a → readOperand s 2 m2 = .error k →
      arithmetic op m1 m2 m3 s = .next (s.enterFault k)) ∧
    (∀ a b : Int, readOperand s 1 m1 = .ok a → readOperand s 2 m2 = .ok b →
      op a b < s.config.wmin ∨ s.config.wmax < op a b → s.config.overflow = .fault →
      arithmetic op m1 m2 m3 s = .next (s.enterFault (.overflow (op a b)))) ∧
    (∀ (a b : Int) (k : Cause), readOperand s 1 m1 = .ok a → readOperand s 2 m2 = .ok b →
      (s.config.wmin ≤ op a b ∧ op a b ≤ s.config.wmax) ∨ s.config.overflow = .wrap → writeTarget s 3 m3 = .error k →
      arithmetic op m1 m2 m3 s = .next (s.enterFault k)) := by
  refine ⟨fun a b t ha hb ht hmin hmax => ?_, fun a b t ha hb ht hout hwrap => ?_, fun k hk => ?_,
    fun a k ha hk => ?_, fun a b ha hb hout hfault => ?_, fun a b k ha hb hfits hk => ?_⟩
  · exact conclude_binary_stores ha hb (narrow_ok_iff.2 (.inl ⟨isWord_iff.2 ⟨hmin, hmax⟩, rfl⟩)) ht
  · exact conclude_binary_stores ha hb (narrow_ok_iff.2 (.inr ⟨isWord_eq_false_iff.2 hout, hwrap, rfl⟩)) ht
  · exact conclude_binary_faults (.inl hk)
  · exact conclude_binary_faults (.inr ⟨a, ha, .inl hk⟩)
  · have hoverflow := narrow_error_iff.2 ⟨isWord_eq_false_iff.2 hout, hfault, rfl⟩
    exact conclude_binary_faults (.inr ⟨a, ha, .inr ⟨b, hb, .inl hoverflow⟩⟩)
  · obtain ⟨r, hr⟩ := narrow_ok_of_fits_or_wrap hfits
    exact conclude_binary_faults (.inr ⟨a, ha, .inr ⟨b, hb, .inr ⟨r, hr, hk⟩⟩⟩)

/-- Settles O25: the words of R73 are the encoding of `add`, and its meaning is the arithmetic one with the sum. -/
theorem addMeaning : Obligations.AddMeaning := by
  intro m1 m2 m3 s
  rw [exec_add]
  exact ⟨fun c => decode_encode c (.add m1 m2 m3), arithmetic_meaning (fun a b => a + b) m1 m2 m3 s⟩

/-- Settles O26: the words of R74 are the encoding of `mul`, and its meaning is the arithmetic one with the product. -/
theorem mulMeaning : Obligations.MulMeaning := by
  intro m1 m2 m3 s
  rw [exec_mul]
  exact ⟨fun c => decode_encode c (.mul m1 m2 m3), arithmetic_meaning (fun a b => a * b) m1 m2 m3 s⟩

end Sys2Proof.Machine
end

/-! ## Proofs: output (41_io.md R76) -/
section
namespace Sys2Proof.Machine

/-- Modes 2 and 3 do not occur on the right: they have no effect (R56). -/
theorem exec_output (m1 m2 m3 : Mode) (s : State) :
    exec (.output m1 m2 m3) s = s.conclude (outputEffect s m1) := rfl

/-- Settles O31: the words of R76 are the encoding of `output`; its effect is the append exactly when the operand can be
read, and otherwise raises the operand's cause, which fault entry takes. -/
theorem outputMeaning : Obligations.OutputMeaning := by
  intro m1 m2 m3 s
  rw [exec_output]
  refine ⟨fun c => decode_encode c (.output m1 m2 m3), fun a ha => ?_, fun k hk => ?_⟩
  · rw [outputEffect_ok_iff.2 ⟨a, ha, rfl⟩, conclude_ok]
  · rw [outputEffect_error_iff.2 hk, conclude_error]

end Sys2Proof.Machine
end

/-! ## Proofs: less-than and equals (43_compare.md R79, R80) -/
section
namespace Sys2Proof.Machine

theorem truthWord_decide (p : Prop) [Decidable p] : truthWord (decide p) = if p then 1 else 0 := by
  simp only [truthWord, decide_eq_true_eq]

/-- Where the computation never fails, only an operand or the destination does, and those raise AddressError (R84). -/
theorem binary_error_address {s : State} {m1 m2 m3 : Mode} {f : Int → Int → Except Cause Int} {k : Cause}
    (h : binary s m1 m2 m3 f = .error k) (hf : ∀ a b, f a b ≠ .error k) :
    ∃ a : Int, k = .addressError a ∧ (a < 0 ∨ (s.mem.length : Int) ≤ a) := by
  rcases binary_error_iff.1 h with h | ⟨a, -, h | ⟨b, -, h | ⟨r, -, h⟩⟩⟩
  · exact readOperand_error h
  · exact readOperand_error h
  · exact absurd h (hf a b)
  · exact writeTarget_error h

/-- What `less-than` and `equals` share: whether `rel` relates operand 1 to operand 2, written as 1 or 0 to
destination 3. -/
def comparison (rel : Int → Int → Prop) [DecidableRel rel] (m1 m2 m3 : Mode) (s : State) :
    Host.Outcome State Fault Refusal :=
  s.conclude (binary s m1 m2 m3 fun a b => .ok (truthWord (decide (rel a b))))

theorem exec_lessThan (m1 m2 m3 : Mode) (s : State) :
    exec (.lessThan m1 m2 m3) s = comparison (fun a b => a < b) m1 m2 m3 s := rfl

theorem exec_equals (m1 m2 m3 : Mode) (s : State) :
    exec (.equals m1 m2 m3) s = comparison (fun a b => a = b) m1 m2 m3 s := rfl

/-- A comparison latches AddressError or nothing: its store keeps the latch, and its result is always a word. -/
theorem comparison_fault_kind {rel : Int → Int → Prop} [DecidableRel rel] {m1 m2 m3 : Mode} {s t : State}
    {r : FaultRecord} (hs : s.fault = none) (h : comparison rel m1 m2 m3 s = .next t) (hr : t.fault = some r) :
    r.kind = .addressError := by
  rcases conclude_next_iff.1 h with hstored | ⟨k, hk, rfl⟩
  · obtain ⟨a, b, v, d, -, -, -, -, rfl⟩ := binary_ok_iff.1 hstored
    simp [hs] at hr
  · obtain ⟨a, rfl, -⟩ := binary_error_address hk fun _ _ => nofun
    cases hr
    rfl

/-- R79 and R80 but for the encoding, with the relation left open: the result, the three exceptions in order, and no
other kind of fault. -/
theorem comparison_meaning (rel : Int → Int → Prop) [DecidableRel rel] (m1 m2 m3 : Mode) (s : State) :
    (∀ (a b : Int) (t : Nat), readOperand s 1 m1 = .ok a → readOperand s 2 m2 = .ok b → writeTarget s 3 m3 = .ok t →
      comparison rel m1 m2 m3 s =
        .next { s with mem := s.mem.set t (if rel a b then 1 else 0), pc := s.pc + 4 }) ∧
    (∀ k, readOperand s 1 m1 = .error k → comparison rel m1 m2 m3 s = .next (s.enterFault k)) ∧
    (∀ (a : Int) (k : Cause), readOperand s 1 m1 = .ok a → readOperand s 2 m2 = .error k →
      comparison rel m1 m2 m3 s = .next (s.enterFault k)) ∧
    (∀ (a b : Int) (k : Cause), readOperand s 1 m1 = .ok a → readOperand s 2 m2 = .ok b →
      writeTarget s 3 m3 = .error k → comparison rel m1 m2 m3 s = .next (s.enterFault k)) ∧
    (∀ (t : State) (r : FaultRecord), s.fault = none → comparison rel m1 m2 m3 s = .next t → t.fault = some r →
      r.kind = .addressError) := by
  refine ⟨fun a b t ha hb ht => ?_, fun k hk => ?_, fun a k ha hk => ?_, fun a b k ha hb hk => ?_,
    fun t r => comparison_fault_kind⟩
  · rw [← truthWord_decide]
    exact conclude_binary_stores ha hb rfl ht
  · exact conclude_binary_faults (.inl hk)
  · exact conclude_binary_faults (.inr ⟨a, ha, .inl hk⟩)
  · exact conclude_binary_faults (.inr ⟨a, ha, .inr ⟨b, hb, .inr ⟨_, rfl, hk⟩⟩⟩)

/-- Settles O27: the words of R79 are the encoding of `less-than`, and its meaning is the comparison by `<`. -/
theorem lessThanMeaning : Obligations.LessThanMeaning := by
  intro m1 m2 m3 s
  rw [exec_lessThan]
  exact ⟨fun c => decode_encode c (.lessThan m1 m2 m3), comparison_meaning (fun a b => a < b) m1 m2 m3 s⟩

/-- Settles O28: the words of R80 are the encoding of `equals`, and its meaning is the comparison by `=`. -/
theorem equalsMeaning : Obligations.EqualsMeaning := by
  intro m1 m2 m3 s
  rw [exec_equals]
  exact ⟨fun c => decode_encode c (.equals m1 m2 m3), comparison_meaning (fun a b => a = b) m1 m2 m3 s⟩

end Sys2Proof.Machine
end

/-! ## Proofs: a fault is terminal (60_exceptions.md R91) -/
section
namespace Sys2Proof.Machine

theorem step_of_noStep {s : State} {r : Fault} (h : s.noStep = some r) : step s = .fault r := by
  rw [step, h]

/-- A request that finds no step leaves the state unchanged, whatever the reason (R108). -/
theorem hostStep_of_step_fault {s : State} {r : Fault} (h : step s = .fault r) : s.hostStep = (s, .noStep) := by
  rw [State.hostStep, h]

/-- The latch is tested before `status` and the queue, so neither matters (R67, R91). -/
theorem noStep_of_faulted {s : State} (h : s.fault ≠ none) : s.noStep = some .noStepFaulted := by
  rw [State.noStep, if_pos (Option.isSome_iff_ne_none.2 h)]

theorem step_of_faulted {s : State} (h : s.fault ≠ none) : step s = .fault .noStepFaulted :=
  step_of_noStep (noStep_of_faulted h)

theorem runEnd_of_faulted {s : State} (h : s.fault ≠ none) : s.runEnd = some .failed := by
  rw [State.runEnd, if_pos (Option.isSome_iff_ne_none.2 h)]

/-- Settles O21: the latch alone decides each clause, and a push keeps it. -/
theorem faultedInstanceHasNoStep : Obligations.FaultedInstanceHasNoStep := by
  intro s hfaulted
  have hstep : step s = .fault .noStepFaulted := step_of_faulted hfaulted
  refine ⟨hstep, hostStep_of_step_fault hstep, runEnd_of_faulted hfaulted, fun v => ?_⟩
  have hkept : (s.pushInput v).fault = s.fault := State.pushInput_fault s v
  exact ⟨hkept, step_of_faulted (hkept ▸ hfaulted)⟩

end Sys2Proof.Machine
end

/-! ## Proofs: an input on an empty queue is no fault (60_exceptions.md R88) -/
section
namespace Sys2Proof.Machine

/-- Modes 2 and 3 do not occur on the right: they have no effect (R56). -/
theorem exec_input (m1 m2 m3 : Mode) (s : State) :
    exec (.input m1 m2 m3) s = s.conclude (inputEffect s m1) := rfl

/-- An input that finds the queue empty writes `status` and nothing else (R75). -/
theorem exec_input_suspends {s : State} {m1 : Mode} {t : Nat} (m2 m3 : Mode) (ht : writeTarget s 1 m1 = .ok t)
    (hempty : s.inq = []) : exec (.input m1 m2 m3) s = .next { s with status := .waitingForInput } := by
  rw [exec_input, inputEffect_ok_iff.2 ⟨t, ht, .inl ⟨hempty, rfl⟩⟩, conclude_ok]

theorem faultReport_of_no_fault {s : State} (h : s.fault = none) : s.faultReport = none := by
  rw [State.faultReport, h, Option.map_none]

theorem runEnd_of_waiting {s : State} (hfault : s.fault = none) (hwaiting : s.status = .waitingForInput) :
    s.runEnd = some .suspended := by
  simp [State.runEnd, hfault, hwaiting]

/-- Settles O30: the suspension keeps the latch, which is not set, so there is no report and the run is suspended. -/
theorem emptyQueueSuspendsWithoutFault : Obligations.EmptyQueueSuspendsWithoutFault := by
  intro m1 m2 m3 s t hfault hempty ht
  exact ⟨exec_input_suspends m2 m3 ht hempty, faultReport_of_no_fault hfault, runEnd_of_waiting hfault rfl⟩

end Sys2Proof.Machine
end

/-! ## Proofs: the decoder and the encoder (30_encoding.md R53 to R66, R70) -/
section
namespace Sys2Proof

theorem Mode.digit_lt_two (m : Mode) : m.digit < 2 := by
  cases m <;> decide

theorem Opcode.number_mem (op : Opcode) : op.number ∈ [1, 2, 3, 4, 5, 6, 7, 8, 99] := by
  cases op <;> decide

theorem modeOfDigit_ok_iff {k d : Nat} {m : Mode} : modeOfDigit k d = .ok m ↔ d = m.digit := by
  constructor
  · intro h
    unfold modeOfDigit at h
    split at h
    · cases h; assumption
    · split at h
      · cases h; assumption
      · cases h
  · rintro rfl
    exact modeOfDigit_digit k m

theorem modeOfDigit_error_iff {k d : Nat} {e : Cause} :
    modeOfDigit k d = .error e ↔ 2 ≤ d ∧ e = .badMode k d := by
  match d with
  | 0 => simp [modeOfDigit]
  | 1 => simp [modeOfDigit]
  | d + 2 => simp [modeOfDigit, eq_comm]

theorem modeOfDigit_of_lt (k : Nat) {d : Nat} (h : d < 2) : ∃ m, modeOfDigit k d = .ok m :=
  match d, h with
  | 0, _ => ⟨.position, rfl⟩
  | 1, _ => ⟨.immediate, rfl⟩

theorem opcodeOfNumber_eq_some {n : Nat} {op : Opcode} (h : opcodeOfNumber n = some op) : n = op.number := by
  simpa [eq_comm] using List.find?_some h

theorem opcodeOfNumber_eq_none_iff {n : Nat} :
    opcodeOfNumber n = none ↔ n ∉ [1, 2, 3, 4, 5, 6, 7, 8, 99] := by
  simp only [opcodeOfNumber, List.find?_eq_none, decide_eq_true_eq]
  simp [opcodeTable, Opcode.number, eq_comm (b := n)]

theorem opcode_instr (op : Opcode) (m1 m2 m3 : Mode) : (op.instr m1 m2 m3).opcode = op := by
  cases op <;> rfl

theorem modes_instr (op : Opcode) (m1 m2 m3 : Mode) : (op.instr m1 m2 m3).modes = (m1, m2, m3) := by
  cases op <;> rfl

/-- A number that decodes is the encoding of its own digits: the checks of R59 leave no digit unread. -/
theorem eq_encodeDigits_of_decodeDigits {n : Nat} {i : Instr} (h : decodeDigits n = .ok i) :
    n = encodeDigits i.opcode.number i.modes.1.digit i.modes.2.1.digit i.modes.2.2.digit := by
  obtain ⟨m1, h1, h⟩ := except_bind_eq_ok.1 h
  obtain ⟨m2, h2, h⟩ := except_bind_eq_ok.1 h
  obtain ⟨m3, h3, h⟩ := except_bind_eq_ok.1 h
  rw [modeOfDigit_ok_iff, digit] at h1 h2 h3
  split at h
  · cases h
  · split at h
    · rename_i op hop
      cases h
      have hnumber := opcodeOfNumber_eq_some hop
      simp only [opcode_instr, modes_instr, encodeDigits]
      omega
    · cases h

/-- The decoder accepts these numbers and no others (R55, R57, R66). -/
def LegalDigits (n : Nat) : Prop :=
  digit 2 n < 2 ∧ digit 3 n < 2 ∧ digit 4 n < 2 ∧ n < 100000 ∧ n % 100 ∈ [1, 2, 3, 4, 5, 6, 7, 8, 99]

section
variable {n : Nat}

theorem decodeDigits_badMode1 (h1 : 2 ≤ digit 2 n) : decodeDigits n = .error (.badMode 1 (digit 2 n)) := by
  rw [decodeDigits, modeOfDigit_error_iff.2 ⟨h1, rfl⟩, except_error_bind]

theorem decodeDigits_badMode2 (h1 : digit 2 n < 2) (h2 : 2 ≤ digit 3 n) :
    decodeDigits n = .error (.badMode 2 (digit 3 n)) := by
  obtain ⟨m1, hm1⟩ := modeOfDigit_of_lt 1 h1
  rw [decodeDigits, hm1, except_ok_bind, modeOfDigit_error_iff.2 ⟨h2, rfl⟩, except_error_bind]

theorem decodeDigits_badMode3 (h1 : digit 2 n < 2) (h2 : digit 3 n < 2) (h3 : 2 ≤ digit 4 n) :
    decodeDigits n = .error (.badMode 3 (digit 4 n)) := by
  obtain ⟨m1, hm1⟩ := modeOfDigit_of_lt 1 h1
  obtain ⟨m2, hm2⟩ := modeOfDigit_of_lt 2 h2
  rw [decodeDigits, hm1, except_ok_bind, hm2, except_ok_bind, modeOfDigit_error_iff.2 ⟨h3, rfl⟩, except_error_bind]

variable (h1 : digit 2 n < 2) (h2 : digit 3 n < 2) (h3 : digit 4 n < 2)
include h1 h2 h3

theorem decodeDigits_extraDigits (h : 100000 ≤ n) : decodeDigits n = .error (.extraDigits (n / 100000)) := by
  obtain ⟨m1, hm1⟩ := modeOfDigit_of_lt 1 h1
  obtain ⟨m2, hm2⟩ := modeOfDigit_of_lt 2 h2
  obtain ⟨m3, hm3⟩ := modeOfDigit_of_lt 3 h3
  have hextra : n / 100000 ≠ 0 := by omega
  rw [decodeDigits, hm1, except_ok_bind, hm2, except_ok_bind, hm3, except_ok_bind, if_pos hextra]

theorem decodeDigits_badOpcode (h : n < 100000) (hop : n % 100 ∉ [1, 2, 3, 4, 5, 6, 7, 8, 99]) :
    decodeDigits n = .error (.badOpcode (n % 100)) := by
  obtain ⟨m1, hm1⟩ := modeOfDigit_of_lt 1 h1
  obtain ⟨m2, hm2⟩ := modeOfDigit_of_lt 2 h2
  obtain ⟨m3, hm3⟩ := modeOfDigit_of_lt 3 h3
  have hextra : ¬ n / 100000 ≠ 0 := by omega
  rw [decodeDigits, hm1, except_ok_bind, hm2, except_ok_bind, hm3, except_ok_bind, if_neg hextra,
    opcodeOfNumber_eq_none_iff.2 hop]

theorem decodeDigits_legal (h : n < 100000) (hop : n % 100 ∈ [1, 2, 3, 4, 5, 6, 7, 8, 99]) :
    ∃ i, decodeDigits n = .ok i := by
  obtain ⟨m1, hm1⟩ := modeOfDigit_of_lt 1 h1
  obtain ⟨m2, hm2⟩ := modeOfDigit_of_lt 2 h2
  obtain ⟨m3, hm3⟩ := modeOfDigit_of_lt 3 h3
  have hextra : ¬ n / 100000 ≠ 0 := by omega
  obtain ⟨op, hop⟩ : ∃ op, opcodeOfNumber (n % 100) = some op :=
    Option.ne_none_iff_exists'.1 fun hnone => opcodeOfNumber_eq_none_iff.1 hnone hop
  exact ⟨op.instr m1 m2 m3, by
    rw [decodeDigits, hm1, except_ok_bind, hm2, except_ok_bind, hm3, except_ok_bind, if_neg hextra, hop]⟩

end

theorem decodeDigits_ok_iff {n : Nat} : (∃ i, decodeDigits n = .ok i) ↔ LegalDigits n := by
  constructor
  · rintro ⟨i, hi⟩
    obtain ⟨hop, h1, h2, h3, hlt⟩ := encodeDigits_fields i.opcode.number_lt i.modes.1.digit_lt i.modes.2.1.digit_lt
      i.modes.2.2.digit_lt
    rw [← eq_encodeDigits_of_decodeDigits hi] at hop h1 h2 h3 hlt
    exact ⟨h1 ▸ Mode.digit_lt_two _, h2 ▸ Mode.digit_lt_two _, h3 ▸ Mode.digit_lt_two _, hlt,
      hop ▸ Opcode.number_mem _⟩
  · rintro ⟨h1, h2, h3, hlt, hop⟩
    exact decodeDigits_legal h1 h2 h3 hlt hop

/-- What the digits of a non-negative word raise is a DecodeError (R83). -/
theorem decodeDigits_error_kind {n : Nat} {k : Cause} (h : decodeDigits n = .error k) : k.kind = .decodeError := by
  rcases except_bind_eq_error.1 h with h | ⟨m1, -, h⟩
  · obtain ⟨-, rfl⟩ := modeOfDigit_error_iff.1 h; rfl
  rcases except_bind_eq_error.1 h with h | ⟨m2, -, h⟩
  · obtain ⟨-, rfl⟩ := modeOfDigit_error_iff.1 h; rfl
  rcases except_bind_eq_error.1 h with h | ⟨m3, -, h⟩
  · obtain ⟨-, rfl⟩ := modeOfDigit_error_iff.1 h; rfl
  split at h
  · cases h; rfl
  · split at h
    · cases h
    · cases h; rfl

theorem decode_natCast (c : Config) (n : Nat) : decode c (n : Int) = decodeDigits (keptDigits c n) := by
  rw [decode, if_neg (Int.not_lt.2 (Int.natCast_nonneg n)), Int.toNat_natCast]

theorem keptDigits_eq (c : Config) (n : Nat) :
    keptDigits c n = if c.extraDigits = .ignore then n % 100000 else n := by
  rw [keptDigits]
  cases c.extraDigits <;> rfl

theorem decode_error_kind {c : Config} {w : Int} {k : Cause} (h : decode c w = .error k) :
    (w < 0 ∧ k = .conversionError w) ∨ (0 ≤ w ∧ k.kind = .decodeError) := by
  rcases lt_or_ge w 0 with hneg | hnonneg
  · rw [decode_of_neg c hneg] at h
    cases h
    exact .inl ⟨hneg, rfl⟩
  · lift w to Nat using hnonneg
    rw [decode_natCast] at h
    exact .inr ⟨Int.natCast_nonneg w, decodeDigits_error_kind h⟩

theorem decode_nonneg {c : Config} {w : Int} {i : Instr} (h : decode c w = .ok i) : 0 ≤ w := by
  refine Int.not_lt.1 fun hneg => ?_
  rw [decode_of_neg c hneg] at h
  cases h

/-- The digits of a word that its policy keeps are the encoding of what the word decodes to. -/
theorem encode_eq_of_decode {c : Config} {n : Nat} {i : Instr} (h : decode c (n : Int) = .ok i) :
    encode i = (keptDigits c n : Int) := by
  rw [decode_natCast] at h
  rw [encode, ← eq_encodeDigits_of_decodeDigits h]

/-- A word of digits that are not legal, in the terms of R83. -/
theorem not_legalDigits_keptDigits_iff (c : Config) (n : Nat) :
    ¬ LegalDigits (keptDigits c n) ↔
      2 ≤ (n : Int) / 100 % 10 ∨ 2 ≤ (n : Int) / 1000 % 10 ∨ 2 ≤ (n : Int) / 10000 % 10 ∨
        (c.extraDigits = .fault ∧ 100000 ≤ (n : Int)) ∨
        (n : Int) % 100 ∉ ([1, 2, 3, 4, 5, 6, 7, 8, 99] : List Int) := by
  rw [keptDigits_eq]
  cases c.extraDigits <;> simp [LegalDigits, digit] <;> omega

end Sys2Proof

namespace Sys2Proof.Machine

/-- Settles O15: by the equation of decoding for an encoding, whose fields lie where the decoder reads them. -/
theorem decodeInvertsEncode : Obligations.DecodeInvertsEncode := decode_encode

/-- Settles O16: the kept digits are the encoding, and the policy says which digits of the word they are. -/
theorem encodeInvertsDecode : Obligations.EncodeInvertsDecode := by
  intro c w i h
  have hnonneg := decode_nonneg h
  lift w to Nat using hnonneg
  have hkept := encode_eq_of_decode h
  rw [keptDigits_eq] at hkept
  refine ⟨Int.natCast_nonneg w, fun hfault => ?_, fun hignore => ?_⟩
  · simpa [hfault] using hkept
  · simpa [hignore] using hkept

/-- Settles O14: a negative word raises ConversionError; the digits of any other decode if they are legal, and raise a
DecodeError if they are not. -/
theorem everyWordFallsInOneClass : Obligations.EveryWordFallsInOneClass := by
  intro c w
  rcases lt_or_ge w 0 with hneg | hnonneg
  · have hconversion := decode_of_neg c hneg
    refine ⟨⟨fun _ => hneg, fun _ => ⟨_, hconversion, rfl⟩⟩, ⟨fun ⟨k, hk, hkind⟩ => ?_, fun h => ?_⟩,
      .inr ⟨_, hconversion, .inl rfl⟩⟩
    · rw [hconversion] at hk
      cases hk
      cases hkind
    · exact absurd h.1 (Int.not_le.2 hneg)
  · lift w to Nat using hnonneg
    have hnonneg := Int.natCast_nonneg w
    rw [← not_legalDigits_keptDigits_iff, ← decodeDigits_ok_iff, decode_natCast]
    cases hdecoded : decodeDigits (keptDigits c w) with
    | ok i => simp [hnonneg]
    | error k => simp [decodeDigits_error_kind hdecoded, hnonneg]

/-- Settles O13: the digits a policy keeps are checked in this order, and each equation is one check that fails after
those before it passed. -/
theorem decodeRejectsInOrder : Obligations.DecodeRejectsInOrder := by
  intro c n v hv
  rw [decode_natCast, keptDigits_eq, ← hv]
  exact ⟨decodeDigits_badMode1, decodeDigits_badMode2, decodeDigits_badMode3, decodeDigits_extraDigits,
    decodeDigits_badOpcode⟩

/-- Settles O17: each word is the encoding of its instruction. -/
theorem sampleWordsDecode : Obligations.SampleWordsDecode := fun c =>
  ⟨decode_encode c (.add .position .position .position), decode_encode c (.mul .position .immediate .position),
    decode_encode c (.input .immediate .position .position), decode_encode c (.output .immediate .position .position),
    decode_encode c (.jumpIfTrue .immediate .immediate .position),
    decode_encode c (.jumpIfFalse .immediate .position .position),
    decode_encode c (.lessThan .position .immediate .immediate),
    decode_encode c (.equals .position .position .immediate),
    decode_encode c (.halt .immediate .immediate .immediate)⟩

/-- Settles O18: the operand count is the format's, the first word is an encoding, and the other words are the operands'
in order. -/
theorem assembledLineDecodes : Obligations.AssembledLineDecodes := by
  intro c op operands hwf
  have hcount : operands.length = op.paramCount := by
    simp only [Line.wf, Line.operandCountOk, Bool.and_eq_true, decide_eq_true_eq] at hwf
    exact hwf.1
  refine ⟨?_, ⟨_, rfl, decode_encode c (lineInstr op operands)⟩, fun k o ho => ?_⟩
  · simp [Line.words, Opcode.length, hcount]
  · simp [Line.words, ho]

end Sys2Proof.Machine
end

/-! ## Proofs: which states step, and what a step runs (30_encoding.md R67) -/
section
namespace Sys2Proof.Machine

/-- What an instruction assigns or raises, before fault entry takes what it raises. -/
def instrEffect (i : Instr) (s : State) : Except Cause State :=
  match i with
  | .add m1 m2 m3 => binary s m1 m2 m3 fun a b => narrow s.config (a + b)
  | .mul m1 m2 m3 => binary s m1 m2 m3 fun a b => narrow s.config (a * b)
  | .input m1 _ _ => inputEffect s m1
  | .output m1 _ _ => outputEffect s m1
  | .jumpIfTrue m1 m2 _ => jumpWhen s m1 m2 fun c => decide (c ≠ 0)
  | .jumpIfFalse m1 m2 _ => jumpWhen s m1 m2 fun c => decide (c = 0)
  | .lessThan m1 m2 m3 => binary s m1 m2 m3 fun a b => .ok (truthWord (decide (a < b)))
  | .equals m1 m2 m3 => binary s m1 m2 m3 fun a b => .ok (truthWord (decide (a = b)))
  | .halt _ _ _ => .ok s.haltNow

theorem exec_eq_conclude (i : Instr) (s : State) : exec i s = s.conclude (instrEffect i s) := by
  cases i <;> rfl

/-- Every effect ends in its assignments or in fault entry (log entries 7 and 13). -/
theorem conclude_total (s : State) (r : Except Cause State) : ∃ t, s.conclude r = .next t := by
  cases r with
  | ok t => exact ⟨t, conclude_ok s t⟩
  | error k => exact ⟨s.enterFault k, conclude_error s k⟩

theorem exec_total (i : Instr) (s : State) : ∃ t, exec i s = .next t := by
  rw [exec_eq_conclude]
  exact conclude_total s (instrEffect i s)

theorem noStep_eq_none_iff {s : State} :
    s.noStep = none ↔ s.fault = none ∧ s.status ≠ .halted ∧ ¬ (s.status = .waitingForInput ∧ s.inq = []) := by
  refine ⟨noStep_none, fun ⟨hfault, hhalted, hwaiting⟩ => ?_⟩
  rw [State.noStep, if_neg (by simp [hfault]), if_neg hhalted, if_neg hwaiting]

theorem noStep_eq_faulted_iff {s : State} : s.noStep = some .noStepFaulted ↔ s.fault ≠ none := by
  simp only [State.noStep, Option.isSome_iff_ne_none]
  split_ifs <;> simp_all

theorem noStep_eq_halted_iff {s : State} :
    s.noStep = some .noStepHalted ↔ s.fault = none ∧ s.status = .halted := by
  simp only [State.noStep, Option.isSome_iff_ne_none]
  split_ifs <;> simp_all

theorem noStep_eq_waiting_iff {s : State} :
    s.noStep = some .noStepWaiting ↔ s.fault = none ∧ s.status = .waitingForInput ∧ s.inq = [] := by
  simp only [State.noStep, Option.isSome_iff_ne_none]
  split_ifs <;> simp_all

theorem fetchDecode_eq (s : State) : s.fetchDecode = memRead s.mem s.pc >>= decode s.config := rfl

theorem fetchDecode_of_word {s : State} {w : Int} (h : memRead s.mem s.pc = .ok w) :
    s.fetchDecode = decode s.config w := by
  rw [fetchDecode_eq, h, except_ok_bind]

theorem step_of_decoded {s : State} {i : Instr} (hready : s.noStep = none) (hi : s.fetchDecode = .ok i) :
    step s = exec i s.begin := by
  have hi' : s.begin.fetchDecode = .ok i := hi
  rw [step, hready]
  simp only [hi']

theorem step_of_fetchDecode_error {s : State} {k : Cause} (hready : s.noStep = none)
    (hk : s.fetchDecode = .error k) : step s = .next (s.enterFault k) := by
  have hk' : s.begin.fetchDecode = .error k := hk
  rw [step, hready]
  simp only [hk']
  rfl

/-- A state that `noStep` lets through steps, for the decoder and every meaning answer (R67). -/
theorem step_total {s : State} (hready : s.noStep = none) : ∃ t, step s = .next t := by
  cases hi : s.fetchDecode with
  | error k => exact ⟨_, step_of_fetchDecode_error hready hi⟩
  | ok i =>
    rw [step_of_decoded hready hi]
    exact exec_total i s.begin

theorem step_eq_next_iff {s : State} : (∃ t, step s = .next t) ↔ s.noStep = none :=
  ⟨fun ⟨_, h⟩ => (step_next h).1, step_total⟩

theorem step_eq_fault_iff {s : State} {r : Fault} : step s = .fault r ↔ s.noStep = some r := by
  refine ⟨fun h => ?_, step_of_noStep⟩
  cases hn : s.noStep with
  | none =>
    obtain ⟨t, ht⟩ := step_total hn
    rw [ht] at h
    cases h
  | some r' =>
    rw [step_of_noStep hn] at h
    cases h
    rfl

/-- Settles O22: a step stops for the reason `noStep` gives and answers a next state where it gives none. -/
theorem noStepExactlyWhen : Obligations.NoStepExactlyWhen := by
  intro s
  refine ⟨step_eq_fault_iff.trans noStep_eq_faulted_iff, step_eq_fault_iff.trans noStep_eq_halted_iff,
    step_eq_fault_iff.trans noStep_eq_waiting_iff, step_eq_next_iff.trans ?_⟩
  rw [noStep_eq_none_iff, not_and]

/-- Settles O23: an effect is an assignment or a raised cause, and each is concluded by a next state. -/
theorem everyInstructionAnswersANextState : Obligations.EveryInstructionAnswersANextState := exec_total

/-- Settles O19: the fetched word is the one decoded, and `begin` is the change of status. -/
theorem stepRunsTheDecodedInstruction : Obligations.StepRunsTheDecodedInstruction := by
  intro s w i hfault hhalted hwaiting hw hi
  have hready := noStep_eq_none_iff.2 ⟨hfault, hhalted, hwaiting⟩
  exact step_of_decoded hready ((fetchDecode_of_word hw).trans hi)

/-- Settles O20: both causes reach `step` through fetch and decode; the record's word is that at `pc`, of which there is
none exactly where the fetch fails. -/
theorem stepTakesFetchAndDecodeFaults : Obligations.StepTakesFetchAndDecodeFaults := by
  intro s hfault hhalted hwaiting
  have hready := noStep_eq_none_iff.2 ⟨hfault, hhalted, hwaiting⟩
  refine ⟨fun hend => ?_, fun w k hw hk => ?_⟩
  · have hfetch := memRead_error_iff.2 ⟨.inr (Int.ofNat_le.2 hend), rfl⟩
    rw [step_of_fetchDecode_error hready (by rw [fetchDecode_eq, hfetch, except_error_bind]), State.enterFault,
      List.getElem?_eq_none hend]
    rfl
  · have hword : s.mem[s.pc]? = some w := (memRead_ok_iff.1 hw).2
    rw [step_of_fetchDecode_error hready ((fetchDecode_of_word hw).trans hk), State.enterFault, hword]

end Sys2Proof.Machine
end

/-! ## Proofs: what a step can do, and its frame (10_state.md R18, 20_memory.md R47) -/
section
namespace Sys2Proof.Machine

/-- What a step raises: a cause of the fetch or the decoder, or one of the decoded instruction (R67). -/
def StepRaises (s : State) (k : Cause) : Prop :=
  s.fetchDecode = .error k ∨ ∃ i, s.fetchDecode = .ok i ∧ Raises s i k

/-- What an instruction raises does not depend on `status`, which `begin` alone sets. -/
theorem raises_begin_iff {s : State} {i : Instr} {k : Cause} : Raises s.begin i k ↔ Raises s i k := by
  constructor <;> intro h <;> cases h <;> constructor <;> assumption

theorem Effect.fault_kept_or_raised {s t : State} {i : Instr} (h : Effect s i t) :
    t.fault = s.fault ∨ ∃ k, Raises s i k ∧ t = s.enterFault k := by
  cases h with
  | faulted _ k hk => exact .inr ⟨k, hk, rfl⟩
  | stored | received | suspended | emitted | jumped | halted => exact .inl rfl

/-- A step that answers a next state took a raised cause by fault entry, or ran an instruction that latched nothing. -/
theorem step_raised_or_ran {s t : State} (h : step s = .next t) :
    (∃ k, StepRaises s k ∧ t = s.enterFault k) ∨
      (t.fault = none ∧ ∃ i, s.fetchDecode = .ok i ∧ Effect s.begin i t) := by
  obtain ⟨hready, ⟨k, hk, rfl⟩ | ⟨i, hi, hexec⟩⟩ := step_next h
  · exact .inl ⟨k, .inl hk, rfl⟩
  · have heffect := exec_effect hexec
    rcases heffect.fault_kept_or_raised with hkept | ⟨k, hk, rfl⟩
    · exact .inr ⟨hkept.trans (noStep_none hready).1, i, hi, heffect⟩
    · exact .inl ⟨k, .inr ⟨i, hi, raises_begin_iff.1 hk⟩, rfl⟩

theorem step_latched {s t : State} (h : step s = .next t) (hfault : t.fault ≠ none) :
    ∃ k, StepRaises s k ∧ t = s.enterFault k :=
  (step_raised_or_ran h).resolve_right fun hran => hfault hran.1

theorem step_ran {s t : State} (h : step s = .next t) (hfault : t.fault = none) :
    ∃ i, s.fetchDecode = .ok i ∧ Effect s.begin i t := by
  rcases step_raised_or_ran h with ⟨k, -, rfl⟩ | ⟨-, hran⟩
  · simp at hfault
  · exact hran

/-! ### The parameters -/

theorem Effect.config {s t : State} {i : Instr} (h : Effect s i t) : t.config = s.config := by
  cases h <;> rfl

theorem step_config {s t : State} (h : step s = .next t) : t.config = s.config := by
  rcases step_raised_or_ran h with ⟨k, -, rfl⟩ | ⟨-, i, -, heffect⟩
  · exact State.enterFault_config s k
  · exact heffect.config

/-- Settles O4: no shape of effect and no push writes the parameters. -/
theorem parametersNeverChange : Obligations.ParametersNeverChange :=
  ⟨fun _ _ => step_config, State.pushInput_config⟩

/-! ### The status register -/

/-- The instructions that store to destination parameter 3 are the four-word ones. -/
theorem opcode_of_third_destination {i : Instr} {m : Mode} (h : i.destination = some (3, m)) :
    i.opcode ≠ .input ∧ i.opcode ≠ .output ∧ i.opcode ≠ .halt := by
  cases i <;> simp_all [Instr.destination, Instr.opcode]

theorem opcode_of_jump {i : Instr} (h : i.opcode = .jumpIfTrue ∨ i.opcode = .jumpIfFalse) :
    i.opcode ≠ .input ∧ i.opcode ≠ .output ∧ i.opcode ≠ .halt := by
  rcases h with h | h <;> simp [h]

/-- The rows of R18 for an instruction that completed or suspended: `halt`, `input` on an empty queue, all others. -/
theorem Effect.status {s t : State} {i : Instr} (h : Effect s i t) (hfault : t.fault = none) :
    (i.opcode = .halt → t.status = .halted) ∧
      (i.opcode = .input → s.inq = [] → t.status = .waitingForInput) ∧
      (i.opcode ≠ .halt → (i.opcode = .input → s.inq ≠ []) → t.status = s.status) := by
  cases h with
  | faulted _ k hk => simp at hfault
  | stored _ m d v hi =>
    obtain ⟨hinput, -, hhalt⟩ := opcode_of_third_destination hi
    exact ⟨fun h => absurd h hhalt, fun h => absurd h hinput, fun _ _ => rfl⟩
  | jumped _ p hi =>
    obtain ⟨hinput, -, hhalt⟩ := opcode_of_jump hi
    exact ⟨fun h => absurd h hhalt, fun h => absurd h hinput, fun _ _ => rfl⟩
  | received m1 m2 m3 d v rest hd hq => exact ⟨nofun, fun _ hempty => by simp [hq] at hempty, fun _ _ => rfl⟩
  | suspended m1 m2 m3 d hd hq => exact ⟨nofun, fun _ _ => rfl, fun _ hqueued => absurd hq (hqueued rfl)⟩
  | emitted => exact ⟨nofun, nofun, fun _ _ => rfl⟩
  | halted => exact ⟨fun _ => rfl, nofun, fun h => absurd rfl h⟩

/-- Settles O24: a step starts from the states that `noStep` lets through, and the status after is fault entry's or that
of the effect, run with status Running. -/
theorem statusFollowsTheTransitionTable : Obligations.StatusFollowsTheTransitionTable := by
  intro s t h
  obtain ⟨-, hhalted, hwaiting⟩ := noStep_none (step_next h).1
  refine ⟨?_, fun hfault => ?_, fun hfault => ?_⟩
  · cases hs : s.status with
    | notStarted => exact .inl rfl
    | running => exact .inr (.inl rfl)
    | waitingForInput => exact .inr (.inr ⟨rfl, fun hempty => hwaiting ⟨hs, hempty⟩⟩)
    | halted => exact absurd hs hhalted
  · obtain ⟨k, -, rfl⟩ := step_latched h hfault
    exact State.enterFault_status s k
  · obtain ⟨i, hi, heffect⟩ := step_ran h hfault
    exact ⟨i, hi, heffect.status hfault⟩

/-! ### Memory -/

/-- Memory changes by the store of one cell, the one the destination names, or not at all. -/
theorem Effect.mem_kept_or_set {s t : State} {i : Instr} (h : Effect s i t) :
    t.mem = s.mem ∨ ∃ k m d v, i.destination = some (k, m) ∧ writeTarget s k m = .ok d ∧ t.mem = s.mem.set d v := by
  cases h with
  | stored _ m d v hi hd => exact .inr ⟨3, m, d, v, hi, hd, rfl⟩
  | received m1 m2 m3 d v rest hd => exact .inr ⟨1, m1, d, v, rfl, hd, rfl⟩
  | faulted | suspended | emitted | jumped | halted => exact .inl rfl

/-- Settles O35: of the one cell that may be set, the destination says that there is one and which. -/
theorem memoryChangesOnlyAtTheTarget : Obligations.MemoryChangesOnlyAtTheTarget := by
  intro i s t h
  refine ⟨(exec_effect h).mem_length, ?_⟩
  rcases (exec_effect h).mem_kept_or_set with hmem | ⟨k, m, d, v, hi, hd, hmem⟩
  · simp only [hmem, implies_true, and_self]
  · refine ⟨fun hnone => by simp [hi] at hnone, fun k' m' hi' => ?_⟩
    obtain ⟨rfl, rfl⟩ : k = k' ∧ m = m' := by simpa [hi] using hi'
    refine ⟨fun a ha j hj => ?_, fun c hc => by simp [hd] at hc⟩
    obtain rfl : d = a := by simpa [hd] using ha
    rw [hmem, memRead_set_other hj]

/-! ### The queue, the log, the latch and status -/

/-- Settles O36: by the shapes of effect, each of which writes few of these elements. -/
theorem everyOtherElementIsKept : Obligations.EveryOtherElementIsKept := by
  intro i s t h
  refine ⟨(exec_effect h).config, ?_⟩
  cases exec_effect h with
  | faulted _ k hk => exact ⟨fun _ => rfl, fun _ => rfl, .inr ⟨k, rfl⟩⟩
  | stored | jumped => exact ⟨fun _ => rfl, fun _ => rfl, .inl ⟨rfl, fun _ _ => rfl, fun _ => .inl rfl⟩⟩
  | received => exact ⟨fun h => absurd rfl h, fun _ => rfl, .inl ⟨rfl, fun _ _ => rfl, fun _ => .inl rfl⟩⟩
  | suspended => exact ⟨fun _ => rfl, fun _ => rfl, .inl ⟨rfl, fun h => absurd rfl h, fun _ => .inr rfl⟩⟩
  | emitted => exact ⟨fun _ => rfl, fun h => absurd rfl h, .inl ⟨rfl, fun _ _ => rfl, nofun⟩⟩
  | halted => exact ⟨fun _ => rfl, fun _ => rfl, .inl ⟨rfl, fun _ h => absurd rfl h, nofun⟩⟩

/-- Emitting is the one shape of effect that touches the log. -/
theorem Effect.outlog_kept_or_emitted {s t : State} {i : Instr} (h : Effect s i t) :
    t.outlog = s.outlog ∨
      ∃ (v : Int) (m1 m2 m3 : Mode), i = .output m1 m2 m3 ∧ readOperand s 1 m1 = .ok v ∧
        t.outlog = s.outlog ++ [v] := by
  cases h with
  | emitted m1 m2 m3 a ha => exact .inr ⟨a, m1, m2, m3, rfl, ha, rfl⟩
  | faulted | stored | received | suspended | jumped | halted => exact .inl rfl

/-- An output that latches nothing has emitted: the other shapes that an instruction of any opcode may have are a store
to destination parameter 3 and a jump. -/
theorem Effect.output_emits {s t : State} {m1 m2 m3 : Mode} (h : Effect s (.output m1 m2 m3) t)
    (hfault : t.fault = none) : ∃ v : Int, readOperand s 1 m1 = .ok v ∧ t.outlog = s.outlog ++ [v] := by
  cases h with
  | emitted _ _ _ a ha => exact ⟨a, ha, rfl⟩
  | faulted _ k hk => simp at hfault
  | stored _ m d v hi => simp [Instr.destination] at hi
  | jumped _ p hi => simp [Instr.opcode] at hi

/-- Settles O38: a fault keeps the log, and of the effects only that of `output` appends, its operand. -/
theorem outputLogIsAppendOnly : Obligations.OutputLogIsAppendOnly := by
  refine ⟨fun s t h => ?_, fun s t m1 m2 m3 h hi hfault => ?_⟩
  · rcases step_raised_or_ran h with ⟨k, -, rfl⟩ | ⟨hfault, i, hi, heffect⟩
    · exact .inl (State.enterFault_outlog s k)
    · rcases heffect.outlog_kept_or_emitted with hkept | ⟨v, m1, m2, m3, rfl, hv, hlog⟩
      · exact .inl hkept
      · exact .inr ⟨v, m1, m2, m3, hi, hv, hlog, hfault⟩
  · exact (exec_effect (exec_of_step h hi)).output_emits hfault

end Sys2Proof.Machine
end

/-! ## Proofs: faults (60_exceptions.md R82 to R90) -/
section
namespace Sys2Proof.Machine

/-- Settles O41: the record of each cause is that of `enterFault`, kind, code and detail computed. -/
theorem faultEntryLatchesTheRecord : Obligations.FaultEntryLatchesTheRecord :=
  fun _ => ⟨fun _ => rfl, fun _ _ => rfl, fun _ => rfl, fun _ => rfl, fun _ => rfl, fun _ => rfl⟩

/-- Settles O42: a latch is set by fault entry of the state before, for some cause. -/
theorem faultsArePrecise : Obligations.FaultsArePrecise := by
  intro s t r h hr
  obtain ⟨k, -, rfl⟩ := step_latched h (by simp [hr])
  cases hr
  exact ⟨rfl, rfl, rfl, rfl⟩

/-- What the fetch and the decoder raise: AddressError of a `pc` outside memory, ConversionError of a negative word, and
DecodeError otherwise (R54, R83, R84). -/
theorem fetchDecode_error {s : State} {k : Cause} (h : s.fetchDecode = .error k) :
    ((s.mem.length : Int) ≤ s.pc ∧ k = .addressError s.pc) ∨
      (∃ w, memRead s.mem s.pc = .ok w ∧ w < 0 ∧ k = .conversionError w) ∨ k.kind = .decodeError := by
  rw [fetchDecode_eq] at h
  rcases except_bind_eq_error.1 h with h | ⟨w, hw, h⟩
  · obtain ⟨hneg | hend, rfl⟩ := memRead_error_iff.1 h
    · exact absurd hneg (Int.not_lt.2 (Int.natCast_nonneg s.pc))
    · exact .inl ⟨hend, rfl⟩
  · rcases decode_error_kind h with ⟨hneg, rfl⟩ | ⟨-, hkind⟩
    · exact .inr (.inl ⟨w, hw, hneg, rfl⟩)
    · exact .inr (.inr hkind)

/-- Settles O45: fetch, operands and destination alone raise AddressError, each of an index it found outside memory. -/
theorem addressErrorNamesAnInvalidIndex : Obligations.AddressErrorNamesAnInvalidIndex := by
  intro s t r h hr hkind
  obtain ⟨k, hraises, rfl⟩ := step_latched h (by simp [hr])
  cases hr
  rcases hraises with hfetch | ⟨i, -, hexec⟩
  · rcases fetchDecode_error hfetch with ⟨hend, rfl⟩ | ⟨w, -, -, rfl⟩ | hdecode
    · exact ⟨s.pc, rfl, .inr hend⟩
    · cases hkind
    · rw [hdecode] at hkind
      cases hkind
  · cases hexec with
    | address i a hout => exact ⟨a, rfl, hout⟩
    | sum | product | ifTrue | ifFalse => cases hkind

/-- A jump faults by operand 1, operand 2 or the negative target of a taken jump, in this order (R77, R78). -/
theorem conclude_jumpWhen_faults {s : State} {m1 m2 : Mode} {taken : Int → Bool} {k : Cause}
    (h : readOperand s 1 m1 = .error k ∨
      ∃ c, readOperand s 1 m1 = .ok c ∧ (readOperand s 2 m2 = .error k ∨
        ∃ d, readOperand s 2 m2 = .ok d ∧ taken c = true ∧ d < 0 ∧ k = .conversionError d)) :
    s.conclude (jumpWhen s m1 m2 taken) = .next (s.enterFault k) :=
  conclude_next_iff.2 (.inr ⟨k, jumpWhen_error_iff.2 h, rfl⟩)

/-- The causes an instruction computes, ConversionError and Overflow, are taken whenever their conditions hold: no check
before them in the order of R69 can have failed. -/
theorem exec_of_raises {s : State} {i : Instr} {k : Cause} (h : Raises s i k) (hk : k.kind ≠ .addressError) :
    exec i s = .next (s.enterFault k) := by
  cases h with
  | address => exact absurd rfl hk
  | sum m1 m2 m3 a b ha hb hw ho =>
    exact conclude_binary_faults (.inr ⟨a, ha, .inr ⟨b, hb, .inl (narrow_error_iff.2 ⟨hw, ho, rfl⟩)⟩⟩)
  | product m1 m2 m3 a b ha hb hw ho =>
    exact conclude_binary_faults (.inr ⟨a, ha, .inr ⟨b, hb, .inl (narrow_error_iff.2 ⟨hw, ho, rfl⟩)⟩⟩)
  | ifTrue m1 m2 m3 a d ha hd ht hn =>
    exact conclude_jumpWhen_faults (.inr ⟨a, ha, .inr ⟨d, hd, decide_eq_true ht, hn, rfl⟩⟩)
  | ifFalse m1 m2 m3 d ha hd hn =>
    exact conclude_jumpWhen_faults (.inr ⟨0, ha, .inr ⟨d, hd, decide_eq_true rfl, hn, rfl⟩⟩)

theorem step_of_raises {s : State} {k : Cause} (hready : s.noStep = none) (h : StepRaises s k)
    (hk : k.kind ≠ .addressError) : step s = .next (s.enterFault k) := by
  rcases h with hfetch | ⟨i, hi, hraises⟩
  · exact step_of_fetchDecode_error hready hfetch
  · rw [step_of_decoded hready hi]
    exact exec_of_raises (raises_begin_iff.2 hraises) hk

/-- Which faults of a kind a step latches: those it raises. -/
theorem step_latches_iff {s t : State} (h : step s = .next t) {kind : FaultKind} (hkind : kind ≠ .addressError)
    (d : Detail) :
    (∃ r, t.fault = some r ∧ r.kind = kind ∧ r.detail = d) ↔ ∃ k, StepRaises s k ∧ k.kind = kind ∧ k.detail = d := by
  constructor
  · rintro ⟨r, hr, rfl, rfl⟩
    obtain ⟨k, hraises, rfl⟩ := step_latched h (by simp [hr])
    cases hr
    exact ⟨k, hraises, rfl, rfl⟩
  · rintro ⟨k, hraises, rfl, rfl⟩
    rw [step_of_raises (step_next h).1 hraises hkind] at h
    cases h
    exact ⟨_, rfl, rfl, rfl⟩

/-- Settles O43: only `add` and `mul` raise Overflow, on the exact result that is no word. -/
theorem overflowExactlyWhen : Obligations.OverflowExactlyWhen := by
  intro s t d h
  rw [step_latches_iff h (by decide)]
  constructor
  · rintro ⟨k, hfetch | ⟨i, hi, hraises⟩, hkind, rfl⟩
    · rcases fetchDecode_error hfetch with ⟨-, rfl⟩ | ⟨w, -, -, rfl⟩ | hdecode
      · cases hkind
      · cases hkind
      · rw [hdecode] at hkind
        cases hkind
    · cases hraises with
      | sum m1 m2 m3 a b ha hb hw ho => exact ⟨ho, m1, m2, m3, a, b, a + b, ha, hb, hw, rfl, .inl ⟨hi, rfl⟩⟩
      | product m1 m2 m3 a b ha hb hw ho => exact ⟨ho, m1, m2, m3, a, b, a * b, ha, hb, hw, rfl, .inr ⟨hi, rfl⟩⟩
      | address | ifTrue | ifFalse => cases hkind
  · rintro ⟨ho, m1, m2, m3, a, b, x, ha, hb, hw, rfl, ⟨hi, rfl⟩ | ⟨hi, rfl⟩⟩
    · exact ⟨_, .inr ⟨_, hi, .sum m1 m2 m3 a b ha hb hw ho⟩, rfl, rfl⟩
    · exact ⟨_, .inr ⟨_, hi, .product m1 m2 m3 a b ha hb hw ho⟩, rfl, rfl⟩

/-- Settles O44: the decoder raises ConversionError for a negative word, a taken jump for its negative target, and
nothing else does. -/
theorem conversionErrorExactlyWhen : Obligations.ConversionErrorExactlyWhen := by
  intro s t d h
  rw [step_latches_iff h (by decide)]
  constructor
  · rintro ⟨k, hfetch | ⟨i, hi, hraises⟩, hkind, rfl⟩
    · rcases fetchDecode_error hfetch with ⟨-, rfl⟩ | ⟨w, hw, hneg, rfl⟩ | hdecode
      · cases hkind
      · exact .inl ⟨w, hw, hneg, rfl⟩
      · rw [hdecode] at hkind
        cases hkind
    · cases hraises with
      | ifTrue m1 m2 m3 a p ha hp ht hn => exact .inr ⟨m1, m2, m3, a, p, ha, hp, hn, rfl, .inl ⟨hi, ht⟩⟩
      | ifFalse m1 m2 m3 p ha hp hn => exact .inr ⟨m1, m2, m3, 0, p, ha, hp, hn, rfl, .inr ⟨hi, rfl⟩⟩
      | address | sum | product => cases hkind
  · rintro (⟨w, hw, hneg, rfl⟩ | ⟨m1, m2, m3, a, p, ha, hp, hn, rfl, ⟨hi, ht⟩ | ⟨hi, rfl⟩⟩)
    · exact ⟨_, .inl ((fetchDecode_of_word hw).trans (decode_of_neg s.config hneg)), rfl, rfl⟩
    · exact ⟨_, .inr ⟨_, hi, .ifTrue m1 m2 m3 a p ha hp ht hn⟩, rfl, rfl⟩
    · exact ⟨_, .inr ⟨_, hi, .ifFalse m1 m2 m3 p ha hp hn⟩, rfl, rfl⟩

end Sys2Proof.Machine
end

/-! ## Proofs: input, the jumps and halt (41_io.md R75, 42_control.md R77 and R78, 44_system.md R81) -/
section
namespace Sys2Proof.Machine

/-- An input that finds a word queued stores the head at its destination (R75). -/
theorem exec_input_receives {s : State} {m1 : Mode} {t : Nat} {v : Int} {rest : List Int} (m2 m3 : Mode)
    (ht : writeTarget s 1 m1 = .ok t) (hq : s.inq = v :: rest) :
    exec (.input m1 m2 m3) s = .next { s with inq := rest, mem := s.mem.set t v, pc := s.pc + 2 } := by
  rw [exec_input, inputEffect_ok_iff.2 ⟨t, ht, .inr ⟨v, rest, hq, rfl⟩⟩, conclude_ok]

/-- Settles O29: the words of R75 are the encoding of `input`; the destination decides between effect and fault, and
the queue between receiving and suspending. -/
theorem inputMeaning : Obligations.InputMeaning := by
  intro m1 m2 m3 s
  refine ⟨fun c => decode_encode c (.input m1 m2 m3), fun t v rest => exec_input_receives m2 m3,
    fun t => exec_input_suspends m2 m3, fun k hk => ?_⟩
  rw [exec_input, inputEffect_error_iff.2 hk, conclude_error]

section
variable {s : State} {m1 m2 : Mode} {taken : Int → Bool} {a : Int}

/-- A taken jump goes to its target, with no upper bound (R77, R78). -/
theorem conclude_jumpWhen_taken {t : Nat} (ha : readOperand s 1 m1 = .ok a) (ht : readOperand s 2 m2 = .ok (t : Int))
    (htaken : taken a = true) : s.conclude (jumpWhen s m1 m2 taken) = .next { s with pc := t } :=
  conclude_next_iff.2 (.inl (jumpWhen_ok_iff.2 ⟨a, t, ha, ht, .inl ⟨htaken, Int.natCast_nonneg t, rfl⟩⟩))

/-- A jump not taken goes on to the next instruction, whatever its target (D8). -/
theorem conclude_jumpWhen_not_taken {t : Int} (ha : readOperand s 1 m1 = .ok a) (ht : readOperand s 2 m2 = .ok t)
    (htaken : taken a = false) : s.conclude (jumpWhen s m1 m2 taken) = .next { s with pc := s.pc + 3 } :=
  conclude_next_iff.2 (.inl (jumpWhen_ok_iff.2 ⟨a, t, ha, ht, .inr ⟨htaken, rfl⟩⟩))

end

theorem exec_jumpIfTrue (m1 m2 m3 : Mode) (s : State) :
    exec (.jumpIfTrue m1 m2 m3) s = s.conclude (jumpWhen s m1 m2 fun c => decide (c ≠ 0)) := rfl

theorem exec_jumpIfFalse (m1 m2 m3 : Mode) (s : State) :
    exec (.jumpIfFalse m1 m2 m3) s = s.conclude (jumpWhen s m1 m2 fun c => decide (c = 0)) := rfl

/-- Settles O32: the words of R77 are the encoding of `jump-if-true`, taken when the condition is not 0. -/
theorem jumpIfTrueMeaning : Obligations.JumpIfTrueMeaning := by
  intro m1 m2 m3 s
  rw [exec_jumpIfTrue]
  refine ⟨fun c => decode_encode c (.jumpIfTrue m1 m2 m3), fun a t ha ht hne => ?_, fun t ha ht => ?_,
    fun k hk => ?_, fun a k ha hk => ?_, fun a t ha ht hne hneg => ?_⟩
  · exact conclude_jumpWhen_taken ha ht (decide_eq_true hne)
  · exact conclude_jumpWhen_not_taken ha ht (decide_eq_false (not_not_intro rfl))
  · exact conclude_jumpWhen_faults (.inl hk)
  · exact conclude_jumpWhen_faults (.inr ⟨a, ha, .inl hk⟩)
  · exact conclude_jumpWhen_faults (.inr ⟨a, ha, .inr ⟨t, ht, decide_eq_true hne, hneg, rfl⟩⟩)

/-- Settles O33: the words of R78 are the encoding of `jump-if-false`, taken when the condition is 0. -/
theorem jumpIfFalseMeaning : Obligations.JumpIfFalseMeaning := by
  intro m1 m2 m3 s
  rw [exec_jumpIfFalse]
  refine ⟨fun c => decode_encode c (.jumpIfFalse m1 m2 m3), fun t ha ht => ?_, fun a t ha ht hne => ?_,
    fun k hk => ?_, fun a k ha hk => ?_, fun t ha ht hneg => ?_⟩
  · exact conclude_jumpWhen_taken ha ht (decide_eq_true rfl)
  · exact conclude_jumpWhen_not_taken ha ht (decide_eq_false hne)
  · exact conclude_jumpWhen_faults (.inl hk)
  · exact conclude_jumpWhen_faults (.inr ⟨a, ha, .inl hk⟩)
  · exact conclude_jumpWhen_faults (.inr ⟨0, ha, .inr ⟨t, ht, decide_eq_true rfl, hneg, rfl⟩⟩)

/-- Settles O34: the words of R81 are the encoding of `halt`, which reads nothing and so raises nothing. -/
theorem haltMeaning : Obligations.HaltMeaning :=
  fun m1 m2 m3 s => ⟨fun c => decode_encode c (.halt m1 m2 m3), conclude_ok s s.haltNow⟩

end Sys2Proof.Machine
end

/-! ## Proofs: what no instruction reads (10_state.md R20 to R22) -/
section
namespace Sys2Proof.Machine

/-- A relation of states that agree on all that operands, destinations and results are computed from, and that every
assignment but the two of `input` keeps, as does fault entry. -/
structure Oblivious (R : State → State → Prop) : Prop where
  mem {s s' : State} (h : R s s') : s'.mem = s.mem
  pc {s s' : State} (h : R s s') : s'.pc = s.pc
  config {s s' : State} (h : R s s') : s'.config = s.config
  setMem {s s' : State} (m : Memory) (h : R s s') : R { s with mem := m } { s' with mem := m }
  setPc {s s' : State} (p : Nat) (h : R s s') : R { s with pc := p } { s' with pc := p }
  emit {s s' : State} (v : Int) (h : R s s') : R (s.emit v) (s'.emit v)
  halt {s s' : State} (h : R s s') : R s.haltNow s'.haltNow
  fault {s s' : State} (k : Cause) (h : R s s') : R (s.enterFault k) (s'.enterFault k)

/-- Related results: both assign, to related states, or both raise the same cause. -/
def ResultsRelated (R : State → State → Prop) (r r' : Except Cause State) : Prop :=
  (∀ t, r = .ok t → ∃ t', r' = .ok t' ∧ R t t') ∧ ∀ k, r = .error k → r' = .error k

/-- The two states have related queues for an input: the same head and related states without it, or both no word and
related states suspended. -/
def InputRelated (R : State → State → Prop) (s s' : State) : Prop :=
  (∃ v rest rest', s.inq = v :: rest ∧ s'.inq = v :: rest' ∧ R (s.takeInput rest) (s'.takeInput rest')) ∨
    (s.inq = [] ∧ s'.inq = [] ∧ R s.suspend s'.suspend)

section
variable {R : State → State → Prop} (hR : Oblivious R) {s s' : State} (h : R s s')
include hR h

theorem Oblivious.readOperand_eq (i : Nat) (m : Mode) : readOperand s' i m = readOperand s i m := by
  simp only [readOperand, paramWord, hR.mem h, hR.pc h]

theorem Oblivious.writeTarget_eq (i : Nat) (m : Mode) : writeTarget s' i m = writeTarget s i m := by
  simp only [writeTarget, paramWord, hR.mem h, hR.pc h]

theorem Oblivious.advance (n : Nat) : R { s with pc := s.pc + n } { s' with pc := s'.pc + n } := by
  rw [hR.pc h]
  exact hR.setPc (s.pc + n) h

theorem Oblivious.store_advance (d : Nat) (v : Int) (n : Nat) :
    R { s with mem := s.mem.set d v, pc := s.pc + n } { s' with mem := s'.mem.set d v, pc := s'.pc + n } := by
  rw [hR.mem h]
  exact hR.advance (hR.setMem (s.mem.set d v) h) n

theorem Oblivious.binary_related (m1 m2 m3 : Mode) (f : Int → Int → Except Cause Int) :
    ResultsRelated R (binary s m1 m2 m3 f) (binary s' m1 m2 m3 f) := by
  refine ⟨fun t ht => ?_, fun k hk => ?_⟩
  · obtain ⟨a, b, r, d, ha, hb, hr, hd, rfl⟩ := binary_ok_iff.1 ht
    rw [← hR.readOperand_eq h] at ha hb
    rw [← hR.writeTarget_eq h] at hd
    exact ⟨_, binary_ok_iff.2 ⟨a, b, r, d, ha, hb, hr, hd, rfl⟩, hR.store_advance h d r 4⟩
  · rw [binary_error_iff] at hk ⊢
    simpa only [hR.readOperand_eq h, hR.writeTarget_eq h] using hk

theorem Oblivious.jumpWhen_related (m1 m2 : Mode) (taken : Int → Bool) :
    ResultsRelated R (jumpWhen s m1 m2 taken) (jumpWhen s' m1 m2 taken) := by
  refine ⟨fun t ht => ?_, fun k hk => ?_⟩
  · obtain ⟨c, d, hc, hd, hjump⟩ := jumpWhen_ok_iff.1 ht
    rw [← hR.readOperand_eq h] at hc hd
    rcases hjump with ⟨htaken, hnonneg, rfl⟩ | ⟨htaken, rfl⟩
    · exact ⟨_, jumpWhen_ok_iff.2 ⟨c, d, hc, hd, .inl ⟨htaken, hnonneg, rfl⟩⟩, hR.setPc d.toNat h⟩
    · exact ⟨_, jumpWhen_ok_iff.2 ⟨c, d, hc, hd, .inr ⟨htaken, rfl⟩⟩, hR.advance h 3⟩
  · rw [jumpWhen_error_iff] at hk ⊢
    simpa only [hR.readOperand_eq h] using hk

theorem Oblivious.outputEffect_related (m1 : Mode) : ResultsRelated R (outputEffect s m1) (outputEffect s' m1) := by
  refine ⟨fun t ht => ?_, fun k hk => ?_⟩
  · obtain ⟨a, ha, rfl⟩ := outputEffect_ok_iff.1 ht
    rw [← hR.readOperand_eq h] at ha
    exact ⟨_, outputEffect_ok_iff.2 ⟨a, ha, rfl⟩, hR.advance (hR.emit a h) 2⟩
  · rw [outputEffect_error_iff] at hk ⊢
    rw [hR.readOperand_eq h, hk]

theorem Oblivious.inputEffect_related (m1 : Mode) (hqueues : InputRelated R s s') :
    ResultsRelated R (inputEffect s m1) (inputEffect s' m1) := by
  refine ⟨fun t ht => ?_, fun k hk => ?_⟩
  · obtain ⟨d, hd, hqueue⟩ := inputEffect_ok_iff.1 ht
    rw [← hR.writeTarget_eq h] at hd
    rcases hqueues with ⟨v, rest, rest', hq, hq', hrest⟩ | ⟨hq, hq', hsuspended⟩
    · obtain ⟨hempty, -⟩ | ⟨u, more, hcons, rfl⟩ := hqueue
      · simp [hq] at hempty
      · obtain ⟨rfl, rfl⟩ : v = u ∧ rest = more := by simpa [hq] using hcons
        exact ⟨_, inputEffect_ok_iff.2 ⟨d, hd, .inr ⟨v, rest', hq', rfl⟩⟩, hR.store_advance hrest d v 2⟩
    · obtain ⟨-, rfl⟩ | ⟨u, more, hcons, -⟩ := hqueue
      · exact ⟨_, inputEffect_ok_iff.2 ⟨d, hd, .inl ⟨hq', rfl⟩⟩, hsuspended⟩
      · simp [hq] at hcons
  · rw [inputEffect_error_iff] at hk ⊢
    rw [hR.writeTarget_eq h, hk]

/-- Every effect takes related states to related results. -/
theorem Oblivious.instrEffect_related (i : Instr) (hqueues : i.opcode = .input → InputRelated R s s') :
    ResultsRelated R (instrEffect i s) (instrEffect i s') := by
  cases i with
  | add | mul | lessThan | equals =>
    simp only [instrEffect, hR.config h]
    exact hR.binary_related h _ _ _ _
  | jumpIfTrue | jumpIfFalse => exact hR.jumpWhen_related h _ _ _
  | input m1 m2 m3 => exact hR.inputEffect_related h m1 (hqueues rfl)
  | output m1 m2 m3 => exact hR.outputEffect_related h m1
  | halt m1 m2 m3 =>
    refine ⟨fun t ht => ?_, nofun⟩
    cases ht
    exact ⟨_, rfl, hR.halt h⟩

theorem Oblivious.exec_related {t : State} (i : Instr) (hqueues : i.opcode = .input → InputRelated R s s')
    (hexec : exec i s = .next t) : ∃ t', exec i s' = .next t' ∧ R t t' := by
  obtain ⟨hok, herror⟩ := hR.instrEffect_related h i hqueues
  rw [exec_eq_conclude, conclude_next_iff] at hexec
  rw [exec_eq_conclude]
  rcases hexec with ht | ⟨k, hk, rfl⟩
  · obtain ⟨t', ht', hrelated⟩ := hok t ht
    exact ⟨t', by rw [ht', conclude_ok], hrelated⟩
  · exact ⟨s'.enterFault k, by rw [herror k hk, conclude_error], hR.fault k h⟩

end

/-- The same state but for `status`. -/
def SameButStatus (s s' : State) : Prop :=
  ∃ x, s' = { s with status := x }

theorem sameButStatus_oblivious : Oblivious SameButStatus where
  mem := by rintro s _ ⟨x, rfl⟩; rfl
  pc := by rintro s _ ⟨x, rfl⟩; rfl
  config := by rintro s _ ⟨x, rfl⟩; rfl
  setMem := by rintro s _ m ⟨x, rfl⟩; exact ⟨x, rfl⟩
  setPc := by rintro s _ p ⟨x, rfl⟩; exact ⟨x, rfl⟩
  emit := by rintro s _ v ⟨x, rfl⟩; exact ⟨x, rfl⟩
  halt := by rintro s _ ⟨x, rfl⟩; exact ⟨.halted, rfl⟩
  fault := by rintro s _ k ⟨x, rfl⟩; exact ⟨.running, rfl⟩

theorem sameButStatus_inputRelated (s : State) (x : Status) :
    InputRelated SameButStatus s { s with status := x } := by
  by_cases hq : s.inq = []
  · exact .inr ⟨hq, hq, .waitingForInput, rfl⟩
  · obtain ⟨v, rest, hq⟩ := List.exists_cons_of_ne_nil hq
    exact .inl ⟨v, rest, rest, hq, hq, x, rfl⟩

/-- Settles O39: agreement but for `status` is kept by every instruction. -/
theorem noInstructionReadsStatus : Obligations.NoInstructionReadsStatus := by
  intro i s t x h
  obtain ⟨t', ht', y, rfl⟩ := sameButStatus_oblivious.exec_related ⟨x, rfl⟩ i
    (fun _ => sameButStatus_inputRelated s x) h
  exact ⟨_, ht', rfl, rfl, rfl, rfl, rfl, rfl⟩

/-- The second state is the first with words added behind its queue and before its log. -/
def ExtendedBy (moreIn earlierOut : List Int) (s s' : State) : Prop :=
  s' = { s with inq := s.inq ++ moreIn, outlog := earlierOut ++ s.outlog }

theorem extendedBy_oblivious (moreIn earlierOut : List Int) : Oblivious (ExtendedBy moreIn earlierOut) where
  mem := by rintro s _ rfl; rfl
  pc := by rintro s _ rfl; rfl
  config := by rintro s _ rfl; rfl
  setMem := by rintro s _ m rfl; rfl
  setPc := by rintro s _ p rfl; rfl
  emit := by rintro s _ v rfl; simp only [ExtendedBy, State.emit, List.append_assoc]
  halt := by rintro s _ rfl; rfl
  fault := by rintro s _ k rfl; rfl

theorem extendedBy_inputRelated {moreIn earlierOut : List Int} {s s' : State} (h : ExtendedBy moreIn earlierOut s s')
    (hqueued : s.inq ≠ []) : InputRelated (ExtendedBy moreIn earlierOut) s s' := by
  subst h
  obtain ⟨v, rest, hq⟩ := List.exists_cons_of_ne_nil hqueued
  exact .inl ⟨v, rest, rest ++ moreIn, hq, by simp [hq], rfl⟩

/-- Settles O40: the extension is kept by every instruction, and by `input` where there is a head to take. -/
theorem queueTailAndLogAreNotRead : Obligations.QueueTailAndLogAreNotRead := by
  intro i s t moreIn earlierOut h hqueued
  have hextended : ExtendedBy moreIn earlierOut s _ := rfl
  obtain ⟨t', ht', rfl⟩ := (extendedBy_oblivious moreIn earlierOut).exec_related hextended i
    (fun hinput => extendedBy_inputRelated hextended (hqueued hinput)) h
  exact ht'

end Sys2Proof.Machine
end

/-! ## Proofs: the invariant of a valid state (10_state.md R18 to R24) -/
section
namespace Sys2Proof.Machine

theorem allWords_append {c : Config} {vs ws : List Int} :
    allWords c (vs ++ ws) = true ↔ allWords c vs = true ∧ allWords c ws = true := by
  simp [allWords]

theorem allWords_cons {c : Config} {v : Int} {vs : List Int} :
    allWords c (v :: vs) = true ↔ c.isWord v = true ∧ allWords c vs = true := by
  simp [allWords]

/-- The invariant of a state with no latch: the words, and the input a suspended state stands at. -/
theorem inv_of_no_fault {s : State} (hfault : s.fault = none) (hmem : Memory.wf s.config s.mem = true)
    (hinq : allWords s.config s.inq = true) (houtlog : allWords s.config s.outlog = true)
    (hwaiting : s.status = .waitingForInput → s.atReadyInput) : s.Inv where
  mem_wf := hmem
  inq_words := hinq
  outlog_words := houtlog
  fault_running := by simp [hfault]
  fault_record := by simp [hfault]
  waiting_input := hwaiting

/-- Settles O46: image and input are words by hypothesis, and a new state is neither faulted nor suspended. -/
theorem createdStateIsValid : Obligations.CreatedStateIsValid := by
  have hcreated : ∀ (c : Config) (image initial : List Int), allWords c image = true → allWords c initial = true →
      (State.create c image initial).Inv :=
    fun c image initial himage hinitial => inv_of_no_fault rfl himage hinitial rfl nofun
  exact ⟨hcreated, hcreated Config.standard [] [] rfl rfl⟩

/-- Fault entry latches the very record that the invariant asks for, and leaves no state suspended. -/
theorem inv_enterFault {s : State} (h : s.Inv) (k : Cause) : (s.enterFault k).Inv where
  mem_wf := h.mem_wf
  inq_words := h.inq_words
  outlog_words := h.outlog_words
  fault_running := fun _ => rfl
  fault_record := by rintro r ⟨⟩; exact ⟨rfl, rfl, rfl⟩
  waiting_input := nofun

/-- What an instruction that latched nothing leaves is valid: what it stores or appends is a word, and if it suspended
it is an input whose destination resolves. -/
theorem inv_of_effect {s t : State} {i : Instr} (h : s.Inv) (hi : s.fetchDecode = .ok i) (heffect : Effect s.begin i t)
    (hfault : t.fault = none) : t.Inv := by
  cases heffect with
  | faulted _ k hk => simp at hfault
  | stored _ m d v hdest hd hv =>
    exact inv_of_no_fault hfault (set_wf h.mem_wf hv) h.inq_words h.outlog_words nofun
  | received m1 m2 m3 d v rest hd hq =>
    obtain ⟨hv, hrest⟩ := allWords_cons.1 (hq ▸ h.inq_words)
    exact inv_of_no_fault hfault (set_wf h.mem_wf hv) hrest h.outlog_words nofun
  | suspended m1 m2 m3 d hd hq =>
    exact inv_of_no_fault hfault h.mem_wf h.inq_words h.outlog_words fun _ => ⟨m1, m2, m3, d, hi, hd⟩
  | emitted m1 m2 m3 a ha =>
    have hword : allWords s.config (s.outlog ++ [a]) = true :=
      allWords_append.2 ⟨h.outlog_words, allWords_cons.2 ⟨readOperand_word h.mem_wf ha, rfl⟩⟩
    exact inv_of_no_fault hfault h.mem_wf h.inq_words hword nofun
  | jumped => exact inv_of_no_fault hfault h.mem_wf h.inq_words h.outlog_words nofun
  | halted => exact inv_of_no_fault hfault h.mem_wf h.inq_words h.outlog_words nofun

theorem step_inv {s t : State} (h : s.Inv) (hstep : step s = .next t) : t.Inv := by
  rcases step_raised_or_ran hstep with ⟨k, -, rfl⟩ | ⟨hfault, i, hi, heffect⟩
  · exact inv_enterFault h k
  · exact inv_of_effect h hi heffect hfault

/-- Settles O47: a step enters a fault or runs an instruction, and both keep the invariant. -/
theorem stepKeepsTheInvariant : Obligations.StepKeepsTheInvariant := fun _ _ => step_inv

/-- Settles O48: a push adds a word to the queue and writes nothing else. -/
theorem pushKeepsTheInvariant : Obligations.PushKeepsTheInvariant := fun _ _ h hv =>
  { mem_wf := h.mem_wf
    inq_words := allWords_append.2 ⟨h.inq_words, allWords_cons.2 ⟨hv, rfl⟩⟩
    outlog_words := h.outlog_words
    fault_running := h.fault_running
    fault_record := h.fault_record
    waiting_input := h.waiting_input }

/-- Settles O49: by induction on how the state was reached. -/
theorem everyReachedStateIsValid : Obligations.EveryReachedStateIsValid := by
  intro s hreached
  induction hreached with
  | create c image initial himage hinitial => exact createdStateIsValid.1 c image initial himage hinitial
  | step s t _ hstep ih => exact step_inv ih hstep
  | push s v _ hv ih => exact pushKeepsTheInvariant s v ih hv

/-- A suspended valid state is not faulted. -/
theorem State.Inv.no_fault_of_waiting {s : State} (h : s.Inv) (hwaiting : s.status = .waitingForInput) :
    s.fault = none := by
  by_contra hfault
  have hrunning := h.fault_running (Option.isSome_iff_ne_none.2 hfault)
  rw [hwaiting] at hrunning
  cases hrunning

/-- Settles O50: the invariant gives the input at `pc` and its destination, and with a word queued there is a step. -/
theorem retryOfASuspendedInputCompletes : Obligations.RetryOfASuspendedInputCompletes := by
  intro s v rest h hwaiting hq
  obtain ⟨m1, m2, m3, a, hi, ha⟩ := h.waiting_input hwaiting
  have hready : s.noStep = none :=
    noStep_eq_none_iff.2 ⟨h.no_fault_of_waiting hwaiting, by simp [hwaiting], by simp [hq]⟩
  have ha' : writeTarget s.begin 1 m1 = .ok a := ha
  refine ⟨m1, m2, m3, a, hi, ha, writeTarget_lt ha, ?_⟩
  rw [step_of_decoded hready hi, exec_input_receives m2 m3 ha' hq]
  rfl

end Sys2Proof.Machine
end

/-! ## Proofs: runs (70_reset_and_hazards.md R111, R112) -/
section
namespace Sys2Proof.Machine

/-- How a run with a step to spare returns: at once where there is no step, or after a first step that stops it, or by
the rest of the run. -/
theorem run_succ_returned {s t : State} {bound : Nat} (h : s.run (bound + 1) = .returned t) :
    ((∀ u, step s ≠ .next u) ∧ t = s) ∨
      ∃ u, step s = .next u ∧ ((u.runStops = true ∧ t = u) ∨ (u.runStops = false ∧ u.run bound = .returned t)) := by
  by_cases hstep : ∃ u, step s = .next u
  · obtain ⟨u, hu⟩ := hstep
    rw [run_succ_of_next bound hu] at h
    cases hstops : u.runStops with
    | true =>
      rw [hstops, if_pos rfl] at h
      cases h
      exact .inr ⟨t, hu, .inl ⟨hstops, rfl⟩⟩
    | false =>
      rw [hstops, if_neg Bool.false_ne_true] at h
      exact .inr ⟨u, hu, .inr ⟨hstops, h⟩⟩
  · have hnone : ∀ u, step s ≠ .next u := fun u hu => hstep ⟨u, hu⟩
    rw [run_succ_of_noStep bound hnone] at h
    cases h
    exact .inl ⟨hnone, rfl⟩

theorem run_returned_add {s t : State} {bound : Nat} (more : Nat) (h : s.run bound = .returned t) :
    s.run (bound + more) = .returned t := by
  induction bound generalizing s with
  | zero => cases h
  | succ bound ih =>
    rw [Nat.add_right_comm]
    rcases run_succ_returned h with ⟨hnone, rfl⟩ | ⟨u, hu, ⟨hstops, rfl⟩ | ⟨hgoes, hrest⟩⟩
    · exact run_succ_of_noStep _ hnone
    · rw [run_succ_of_next _ hu, if_pos hstops]
    · rw [run_succ_of_next _ hu, if_neg (by simp [hgoes]), ih hrest]

/-- Settles O52: by induction on the bound, since a run looks at its bound only when it takes another step. -/
theorem runDoesNotDependOnTheBound : Obligations.RunDoesNotDependOnTheBound := fun _ more _ _ => run_returned_add more

theorem run_returned_unique {s t t' : State} {bound bound' : Nat} (h : s.run bound = .returned t)
    (h' : s.run bound' = .returned t') : t = t' := by
  have hsum := run_returned_add bound' h
  rw [Nat.add_comm, run_returned_add bound h'] at hsum
  cases hsum
  rfl

/-- Only a suspension leaves `status` at WaitingForInput, and it met an empty queue, which it keeps. -/
theorem step_waiting_inq {s t : State} (h : step s = .next t) (hwaiting : t.status = .waitingForInput) :
    t.inq = [] := by
  rcases step_raised_or_ran h with ⟨k, -, rfl⟩ | ⟨-, i, -, heffect⟩
  · cases hwaiting
  · cases heffect with
    | suspended m1 m2 m3 d hd hq => exact hq
    | faulted | stored | received | emitted | jumped | halted => cases hwaiting

/-- Where a run stops after a step there is no further one (R111). -/
theorem noStep_of_runStops {s t : State} (h : step s = .next t) (hstops : t.runStops = true) : t.noStep ≠ none := by
  rw [Ne, noStep_eq_none_iff]
  rintro ⟨hfault, hhalted, hwaiting⟩
  have hnotwaiting : t.status ≠ .waitingForInput := fun hw => hwaiting ⟨hw, step_waiting_inq h hw⟩
  simp [State.runStops, hfault, hhalted, hnotwaiting] at hstops

theorem run_returned_noStep {s t : State} {bound : Nat} (h : s.run bound = .returned t) : t.noStep ≠ none := by
  induction bound generalizing s with
  | zero => cases h
  | succ bound ih =>
    rcases run_succ_returned h with ⟨hnone, rfl⟩ | ⟨u, hu, ⟨hstops, rfl⟩ | ⟨-, hrest⟩⟩
    · exact fun hready => (step_total hready).elim hnone
    · exact noStep_of_runStops hu hstops
    · exact ih hrest

theorem runEnd_of_halted {s : State} (hfault : s.fault = none) (hhalted : s.status = .halted) :
    s.runEnd = some .completed := by
  simp [State.runEnd, hfault, hhalted]

/-- The three reasons for no step are the three ways in which a run that returns has ended. -/
theorem runEnd_of_noStep {s : State} (h : s.noStep ≠ none) :
    s.runEnd = some .completed ∨ s.runEnd = some .suspended ∨ s.runEnd = some .failed := by
  obtain ⟨r, hr⟩ := Option.ne_none_iff_exists'.1 h
  cases r with
  | noStepFaulted => exact .inr (.inr (runEnd_of_faulted (noStep_eq_faulted_iff.1 hr)))
  | noStepHalted =>
    obtain ⟨hfault, hhalted⟩ := noStep_eq_halted_iff.1 hr
    exact .inl (runEnd_of_halted hfault hhalted)
  | noStepWaiting =>
    obtain ⟨hfault, hwaiting, -⟩ := noStep_eq_waiting_iff.1 hr
    exact .inr (.inl (runEnd_of_waiting hfault hwaiting))

/-- How an unbounded run ends is read off the one state in which any bounded run returns. -/
theorem runEndsIn_iff_of_returned {s t : State} {bound : Nat} (h : s.run bound = .returned t) (e : RunEnd) :
    s.RunEndsIn e ↔ t.runEnd = some e := by
  have hreturns : s.RunReturnsAs e ↔ t.runEnd = some e := by
    refine ⟨fun ⟨bound', t', h', he⟩ => ?_, fun he => ⟨bound, t, h, he⟩⟩
    rw [run_returned_unique h h', he]
  cases e with
  | completed | suspended | failed => exact hreturns
  | diverged =>
    refine iff_of_false (fun hdiverges => runDiverges_iff.1 hdiverges bound t h) fun hdiverged => ?_
    rcases runEnd_of_noStep (run_returned_noStep h) with he | he | he <;> simp [he] at hdiverged

theorem runEndsIn_unique_of_diverges {s : State} (h : s.RunDiverges) {e : RunEnd} (he : s.RunEndsIn e) :
    e = .diverged := by
  cases e with
  | completed | suspended | failed =>
    obtain ⟨bound, t, hreturned, -⟩ := he
    exact absurd hreturned (runDiverges_iff.1 h bound t)
  | diverged => rfl

theorem existsUnique_runEndsIn (s : State) : ∃! e, s.RunEndsIn e := by
  by_cases hdiverges : s.RunDiverges
  · exact ⟨.diverged, hdiverges, fun e => runEndsIn_unique_of_diverges hdiverges⟩
  · obtain ⟨bound, t, h⟩ : ∃ bound t, s.run bound = .returned t := by
      simpa [runDiverges_iff] using hdiverges
    obtain ⟨e, he⟩ : ∃ e, t.runEnd = some e := by
      rcases runEnd_of_noStep (run_returned_noStep h) with he | he | he <;> exact ⟨_, he⟩
    simp only [runEndsIn_iff_of_returned h, he]
    exact ⟨e, rfl, fun e' he' => (Option.some.inj he').symm⟩

/-- A returned run is safe when the way it ended is one of the two without a fault. -/
theorem fault_none_iff_of_noStep {s : State} (h : s.noStep ≠ none) :
    s.fault = none ↔ s.runEnd = some .completed ∨ s.runEnd = some .suspended := by
  constructor
  · intro hfault
    rcases runEnd_of_noStep h with he | he | he
    · exact .inl he
    · exact .inr he
    · simp only [State.runEnd, hfault] at he
      cases hs : s.status <;> simp [hs] at he
  · intro he
    by_contra hfault
    simp [runEnd_of_faulted hfault] at he

/-- Settles O51: a run returns only where there is no step, for a reason that is the way it ended. -/
theorem returnedRunHasEnded : Obligations.ReturnedRunHasEnded := by
  refine ⟨existsUnique_runEndsIn, fun bound s t h => ?_, fun bound s => ?_⟩
  · have hstop := run_returned_noStep h
    obtain ⟨r, hr⟩ := Option.ne_none_iff_exists'.1 hstop
    exact ⟨runEnd_of_noStep hstop, r, step_of_noStep hr⟩
  · exact exists_congr fun t => and_congr_right fun h => fault_none_iff_of_noStep (run_returned_noStep h)

end Sys2Proof.Machine
end

/-! ## Proofs: the loader (70_reset_and_hazards.md R105 to R107) -/
section
namespace Sys2Proof

theorem count_dropWhile_of_not {p : Char → Bool} {ch : Char} (hch : p ch = false) (text : List Char) :
    (text.dropWhile p).count ch = text.count ch := by
  have hblank : (text.takeWhile p).count ch = 0 :=
    List.count_eq_zero.2 fun hmem => by simp [List.mem_takeWhile_imp hmem] at hch
  conv_rhs => rw [← List.takeWhile_append_dropWhile (p := p) (l := text), List.count_append, hblank, Nat.zero_add]

/-- No comma is whitespace, so trimming drops none. -/
theorem count_comma_trim (text : List Char) : (trim text).count ',' = text.count ',' := by
  have hcomma : isBlank ',' = false := by decide
  rw [trim, List.count_reverse, count_dropWhile_of_not hcomma, List.count_reverse, count_dropWhile_of_not hcomma]

theorem splitCommas_comma (text : List Char) : splitCommas (',' :: text) = [] :: splitCommas text := by
  rw [splitCommas, if_pos rfl]

theorem splitCommas_of_ne {ch : Char} {text piece : List Char} {pieces : List (List Char)} (hch : ch ≠ ',')
    (h : splitCommas text = piece :: pieces) : splitCommas (ch :: text) = (ch :: piece) :: pieces := by
  rw [splitCommas, if_neg hch, h]

theorem splitCommas_ne_nil (text : List Char) : splitCommas text ≠ [] := by
  induction text with
  | nil => exact List.cons_ne_nil _ _
  | cons ch text ih =>
    by_cases hch : ch = ','
    · rw [hch, splitCommas_comma]
      exact List.cons_ne_nil _ _
    · obtain ⟨piece, pieces, h⟩ := List.exists_cons_of_ne_nil ih
      rw [splitCommas_of_ne hch h]
      exact List.cons_ne_nil _ _

theorem length_splitCommas (text : List Char) : (splitCommas text).length = text.count ',' + 1 := by
  induction text with
  | nil => rfl
  | cons ch text ih =>
    by_cases hch : ch = ','
    · rw [hch, splitCommas_comma, List.length_cons, ih, List.count_cons_self]
    · obtain ⟨piece, pieces, h⟩ := List.exists_cons_of_ne_nil (splitCommas_ne_nil text)
      rw [splitCommas_of_ne hch h, List.length_cons, ← List.length_cons (a := piece), ← h, ih,
        List.count_cons_of_ne hch]

/-- A text that ends in a comma has an empty last piece. -/
theorem splitCommas_trailing_comma (text : List Char) : splitCommas (text ++ [',']) = splitCommas text ++ [[]] := by
  induction text with
  | nil => rfl
  | cons ch text ih =>
    rw [List.cons_append]
    by_cases hch : ch = ','
    · rw [hch, splitCommas_comma, splitCommas_comma, ih, List.cons_append]
    · obtain ⟨piece, pieces, h⟩ := List.exists_cons_of_ne_nil (splitCommas_ne_nil text)
      rw [h, List.cons_append] at ih
      rw [splitCommas_of_ne hch ih, splitCommas_of_ne hch h, List.cons_append]

theorem trim_trailing_comma (text : List Char) : ∃ text', trim (text ++ [',']) = text' ++ [','] := by
  refine ⟨text.dropWhile isBlank, ?_⟩
  have hcomma : isBlank ',' = false := by decide
  have hkept : (text ++ [',']).dropWhile isBlank = text.dropWhile isBlank ++ [','] := by
    rw [List.dropWhile_append]
    split <;> simp_all
  rw [trim, hkept, List.reverse_concat, List.dropWhile_cons_of_neg (by simp [hcomma]), List.reverse_cons,
    List.reverse_reverse]

/-- A load that succeeds read each piece as the token of a word (R105, R106). -/
theorem loadPieces_ok {c : Config} {pieces : List (List Char)} {k : Nat} {image : List Int}
    (h : loadPieces c k pieces = .ok image) :
    List.Forall₂ (fun piece v => tokenValue (trim piece) = some v ∧ c.isWord v = true) pieces image := by
  induction pieces generalizing k image with
  | nil => cases h; exact .nil
  | cons piece pieces ih =>
    rw [loadPieces] at h
    split at h
    · cases h
    · rename_i v hv
      split at h
      · rename_i hword
        obtain ⟨rest, hrest, h⟩ := except_bind_eq_ok.1 h
        cases h
        exact .cons ⟨hv, hword⟩ (ih hrest)
      · cases h

theorem allWords_of_loadPieces {c : Config} {pieces : List (List Char)} {k : Nat} {image : List Int}
    (h : loadPieces c k pieces = .ok image) : allWords c image = true := by
  have hforall := loadPieces_ok h
  rw [allWords_iff]
  clear h
  induction hforall with
  | nil => simp
  | cons hpiece _ ih => exact List.forall_mem_cons.2 ⟨hpiece.2, ih⟩

/-- An empty piece is no token (R106). -/
theorem loadPieces_trailing_empty {c : Config} {pieces : List (List Char)} {k : Nat} {image : List Int} :
    loadPieces c k (pieces ++ [[]]) ≠ .ok image := by
  intro h
  have hlast := List.forall₂_drop pieces.length (loadPieces_ok h)
  rw [List.drop_left] at hlast
  obtain ⟨v, rest, ⟨htoken, -⟩, -⟩ := List.forall₂_cons_left_iff.1 hlast
  cases htoken

end Sys2Proof

namespace Sys2Proof.Machine

/-- Settles O53: there are as many pieces as commas and one more, each read as one word; after a trailing comma the last
piece is empty. -/
theorem loadedImageIsWellFormed : Obligations.LoadedImageIsWellFormed := by
  refine ⟨fun c text image h => ⟨?_, allWords_of_loadPieces h⟩, fun c text image h => ?_⟩
  · rw [← (loadPieces_ok h).length_eq, length_splitCommas, count_comma_trim]
  · obtain ⟨text', htrim⟩ := trim_trailing_comma text
    rw [loadImage, htrim, splitCommas_trailing_comma] at h
    exact loadPieces_trailing_empty h

end Sys2Proof.Machine
end

/-! ## Proofs: an instruction placed in memory (log entry 5) -/
section
namespace Sys2Proof.Machine

theorem memPlace_below (m : Memory) {a j : Nat} (ws : List Int) (h : j < a) : (memPlace m a ws)[j]? = m[j]? := by
  induction ws generalizing m a with
  | nil => rfl
  | cons w ws ih => rw [memPlace, ih _ (by omega), List.getElem?_set_ne (by omega)]

theorem memPlace_placed {m : Memory} {a k : Nat} {v : Int} {ws : List Int} (hroom : a + ws.length ≤ m.length)
    (hv : ws[k]? = some v) : (memPlace m a ws)[a + k]? = some v := by
  induction ws generalizing m a k with
  | nil => simp at hv
  | cons w ws ih =>
    rw [List.length_cons] at hroom
    rw [memPlace]
    cases k with
    | zero =>
      rw [memPlace_below _ _ (by omega), Nat.add_zero, List.getElem?_set_self (by omega)]
      simpa using hv
    | succ k =>
      rw [Nat.add_comm k 1, ← Nat.add_assoc]
      exact ih (by rw [List.length_set]; omega) (by simpa using hv)

theorem length_le_memExtend (m : Memory) (n : Nat) : n ≤ (memExtend m n).length := by
  simp only [memExtend, List.length_append, List.length_replicate]
  omega

/-- A load writes the words from `pc` on and, where there was no step, clears what stopped it; it leaves the other
elements. -/
theorem load_eq (s : State) (ws : List Int) :
    (s.noStep = none ∧ s.load ws = { s with mem := memPlace (memExtend s.mem (s.pc + ws.length)) s.pc ws }) ∨
      s.load ws =
        { s with
          mem := memPlace (memExtend s.mem (s.pc + ws.length)) s.pc ws
          status := .notStarted
          fault := none } := by
  cases h : s.noStep with
  | none => exact .inl ⟨rfl, by rw [State.load, h]⟩
  | some r => exact .inr (by rw [State.load, h])

theorem load_keeps (s : State) (ws : List Int) :
    (s.load ws).mem = memPlace (memExtend s.mem (s.pc + ws.length)) s.pc ws ∧ (s.load ws).pc = s.pc ∧
      (s.load ws).inq = s.inq ∧ (s.load ws).outlog = s.outlog ∧ (s.load ws).config = s.config := by
  rcases load_eq s ws with ⟨-, h⟩ | h <;> rw [h] <;> exact ⟨rfl, rfl, rfl, rfl, rfl⟩

theorem load_noStep (s : State) (ws : List Int) : (s.load ws).noStep = none := by
  rcases load_eq s ws with ⟨hready, h⟩ | h
  · rw [h]
    exact hready
  · rw [h, noStep_eq_none_iff]
    exact ⟨rfl, nofun, fun hwaiting => nomatch hwaiting.1⟩

theorem load_placed {s : State} {ws : List Int} {k : Nat} {v : Int} (hv : ws[k]? = some v) :
    memRead (s.load ws).mem ((s.pc + k : Nat) : Int) = .ok v := by
  obtain ⟨hmem, -⟩ := load_keeps s ws
  rw [hmem, memRead_ok_iff, Int.toNat_natCast]
  exact ⟨Int.natCast_nonneg _, memPlace_placed (length_le_memExtend _ _) hv⟩

/-- Settles O54: the load leaves a step, and the first placed word is the one it fetches. -/
theorem placedInstructionIsFetchedNext : Obligations.PlacedInstructionIsFetchedNext := by
  intro s nbits w
  obtain ⟨-, hpc, hinq, houtlog, hconfig⟩ := load_keeps s (wordsOfBits s.config nbits w longestInstr)
  refine ⟨load_noStep _ _, hpc, hinq, houtlog, hconfig, fun k v => load_placed, fun i hi => ?_⟩
  obtain ⟨first, hfirst, hdecode⟩ := decodeFirst_eq_some_iff.1 hi
  have hword : memRead (State.reset.withFetchWord nbits w).mem (State.reset.withFetchWord nbits w).pc = .ok first :=
    load_placed (s := State.reset) hfirst
  exact step_of_decoded (load_noStep _ _) ((fetchDecode_of_word hword).trans hdecode)

end Sys2Proof.Machine
end

/-! ## Proofs: the Amplifier Network (70_reset_and_hazards.md R115 to R118) -/
section
namespace Sys2Proof.Machine

section
variable {steps : Nat} {n : Network} {s t : State}

theorem turn_of_halted (hs : n.insts[n.cursor]? = some s) (hhalted : s.status = .halted) :
    n.turn steps = .went n.moveOn := by
  rw [Network.turn, hs]
  exact if_pos hhalted

variable (hs : n.insts[n.cursor]? = some s) (hhalted : s.status ≠ .halted)
include hs hhalted

theorem turn_of_returned (hrun : (s.pushInput n.signal).run steps = .returned t) (hfault : t.fault = none) :
    n.turn steps = .went (n.settle s t).moveOn := by
  simp only [Network.turn, hs, hhalted, if_false, hrun, faultReport_of_no_fault hfault]

theorem turn_of_faulted {r : FaultRecord} (hrun : (s.pushInput n.signal).run steps = .returned t)
    (hfault : t.fault = some r) : n.turn steps = .aborted n.cursor ⟨r, t.mem⟩ := by
  simp only [Network.turn, hs, hhalted, if_false, hrun, State.faultReport, hfault, Option.map_some]

end

/-- A turn that goes through skipped a halted machine or settled one that ran without a fault. -/
theorem turn_went {steps : Nat} {n n' : Network} (h : n.turn steps = .went n') :
    n' = n.moveOn ∨ ∃ s t, n' = (n.settle s t).moveOn := by
  unfold Network.turn at h
  split at h
  · cases h
  · split at h
    · cases h; exact .inl rfl
    · split at h
      · cases h
      · split at h
        · cases h
        · cases h; exact .inr ⟨_, _, rfl⟩

/-- Settles O55: a turn at a halted machine is the move of the cursor. -/
theorem haltedInstanceIsSkipped : Obligations.HaltedInstanceIsSkipped := fun _ _ _ => turn_of_halted

/-- Settles O56: a turn sets at most the state at the cursor, and moves the cursor on. -/
theorem turnTouchesOnlyItsInstance : Obligations.TurnTouchesOnlyItsInstance := by
  intro steps n n' h
  rcases turn_went h with rfl | ⟨s, t, rfl⟩
  · exact ⟨rfl, rfl, fun _ _ => rfl⟩
  · have hlength : (n.settle s t).moveOn.insts.length = n.insts.length := List.length_set
    refine ⟨hlength, ?_, fun j hj => List.getElem?_set_ne hj.symm⟩
    rw [← hlength]
    rfl

theorem signalAfter_of_no_output {s t : State} (signal : Int) (h : t.outlog.length ≤ s.outlog.length) :
    signalAfter s t signal = signal := by
  rw [signalAfter, if_neg (Nat.not_lt.2 h)]

theorem signalAfter_of_output {s t : State} {v : Int} (signal : Int) (h : s.outlog.length < t.outlog.length)
    (hv : t.outlog.getLast? = some v) : signalAfter s t signal = v := by
  rw [signalAfter, if_pos h, hv]

/-- Settles O57: the turn settles the state the run returned, and each clause is an element of the settled network. -/
theorem activationHandsTheSignalOn : Obligations.ActivationHandsTheSignalOn := by
  intro steps n s t hs hhalted hrun hfault
  have hcursor : n.cursor < n.insts.length := (List.getElem?_eq_some_iff.1 hs).1
  refine ⟨_, turn_of_returned hs hhalted hrun hfault, List.getElem?_set_self hcursor,
    signalAfter_of_no_output n.signal, fun v => signalAfter_of_output n.signal, fun h => if_pos h, fun h => if_neg h⟩

/-- Settles O58: the network's loop ends with the aborted turn. -/
theorem faultAbortsTheNetwork : Obligations.FaultAbortsTheNetwork := by
  intro steps rounds n s t r hgoing hs hhalted hrun hfault
  rw [Network.run, if_pos hgoing, turn_of_faulted hs hhalted hrun hfault]

end Sys2Proof.Machine
end

/-! ## Proofs: the Phase Search (70_reset_and_hazards.md R119, D24) -/
section
namespace Sys2Proof.Machine

/-- A list of orders with a witness: its network answers `best`, those of the earlier orders answer less, and those of
the later orders no more. -/
def FirstMaximum (run : List Int → NetworkResult) (orders : List (List Int)) (best : Int) (witness : List Int) : Prop :=
  ∃ before after, orders = before ++ witness :: after ∧ run witness = .answer best ∧
    (∀ o ∈ before, ∃ v, run o = .answer v ∧ v < best) ∧ ∀ o ∈ after, ∃ v, run o = .answer v ∧ v ≤ best

/-- The new signal replaces what was found when it exceeds it, and otherwise does not exceed it (R119). -/
theorem better_cases (found : Option (Int × List Int)) (signal : Int) (order : List Int) :
    (better found signal order = some (signal, order) ∧ ∀ f ∈ found, f.1 < signal) ∨
      ∃ f, found = some f ∧ better found signal order = some f ∧ signal ≤ f.1 := by
  match found with
  | none => exact .inl ⟨rfl, nofun⟩
  | some (s, w) =>
    rw [better]
    split
    · rename_i hlt
      exact .inl ⟨rfl, by rintro f ⟨⟩; exact hlt⟩
    · rename_i hge
      exact .inr ⟨(s, w), rfl, rfl, Int.not_lt.1 hge⟩

/-- What a search that was given a result so far can end with: that result, which no order exceeds, or the first maximum
of the orders, which exceeds that result. -/
theorem searchOrders_best {run : List Int → NetworkResult} {orders : List (List Int)} {found : Option (Int × List Int)}
    {best : Int} {witness : List Int} (h : searchOrders run orders found = .best (some (best, witness))) :
    (found = some (best, witness) ∧ ∀ o ∈ orders, ∃ v, run o = .answer v ∧ v ≤ best) ∨
      (FirstMaximum run orders best witness ∧ ∀ f ∈ found, f.1 < best) := by
  induction orders generalizing found with
  | nil => cases h; exact .inl ⟨rfl, by simp⟩
  | cons order orders ih =>
    rw [searchOrders] at h
    cases hrun : run order with
    | aborted i report => rw [hrun] at h; cases h
    | boundReached => rw [hrun] at h; cases h
    | answer signal =>
      rw [hrun] at h
      rcases ih h with ⟨hfound, hrest⟩ | ⟨⟨before, after, rfl, hwitness, hbefore, hafter⟩, hexceeds⟩
      · rcases better_cases found signal order with ⟨hnew, hless⟩ | ⟨f, rfl, hold, hle⟩
        · rw [hnew] at hfound
          cases hfound
          exact .inr ⟨⟨[], orders, rfl, hrun, by simp, hrest⟩, hless⟩
        · rw [hold] at hfound
          cases hfound
          exact .inl ⟨rfl, List.forall_mem_cons.2 ⟨⟨signal, hrun, hle⟩, hrest⟩⟩
      · have hless : signal < best ∧ ∀ f ∈ found, f.1 < best := by
          rcases better_cases found signal order with ⟨hnew, hless⟩ | ⟨f, rfl, hold, hle⟩
          · have hsignal := hexceeds _ hnew
            exact ⟨hsignal, fun f hf => (hless f hf).trans hsignal⟩
          · have hf := hexceeds _ hold
            exact ⟨hle.trans_lt hf, by rintro g ⟨⟩; exact hf⟩
        exact .inr ⟨⟨order :: before, after, rfl, hwitness,
          List.forall_mem_cons.2 ⟨⟨signal, hrun, hless.1⟩, hbefore⟩, hafter⟩, hless.2⟩

/-- Settles O59: a search begins with nothing found. -/
theorem phaseSearchFindsTheFirstMaximum : Obligations.PhaseSearchFindsTheFirstMaximum := by
  intro c steps rounds image phases signal0 best witness h
  rcases searchOrders_best h with ⟨hfound, -⟩ | ⟨hfirst, -⟩
  · cases hfound
  · exact hfirst

end Sys2Proof.Machine
end

/-! ## Proofs: the phase orders (70_reset_and_hazards.md R119, D24) -/
section
namespace Sys2Proof.Machine

theorem insertWord_eq_orderedInsert (x : Int) (l : List Int) : insertWord x l = l.orderedInsert (· ≤ ·) x := by
  induction l with
  | nil => rfl
  | cons y ys ih => rw [insertWord, List.orderedInsert_cons, ih]

theorem sortWords_eq_insertionSort (l : List Int) : sortWords l = l.insertionSort (· ≤ ·) := by
  induction l with
  | nil => rfl
  | cons x xs ih => rw [sortWords, List.insertionSort_cons, ih, insertWord_eq_orderedInsert]

theorem sortWords_perm (l : List Int) : (sortWords l).Perm l := by
  rw [sortWords_eq_insertionSort]
  exact List.perm_insertionSort _ l

theorem sortWords_strict {l : List Int} (h : l.Nodup) : (sortWords l).Pairwise (· < ·) := by
  have hle : (sortWords l).Pairwise (· ≤ ·) := by
    rw [sortWords_eq_insertionSort]
    exact List.pairwise_insertionSort _ l
  have hne : (sortWords l).Pairwise (· ≠ ·) := (sortWords_perm l).nodup_iff.2 h
  exact (hle.and hne).imp fun h => lt_of_le_of_ne h.1 h.2

theorem selections_fst (l : List Int) : (selections l).map Prod.fst = l := by
  induction l with
  | nil => rfl
  | cons x xs ih =>
    rw [selections, List.map_cons, List.map_map]
    exact congrArg (x :: ·) ih

theorem length_selections (l : List Int) : (selections l).length = l.length := by
  rw [← List.length_map Prod.fst, selections_fst]

/-- A selection is an element with the others. -/
theorem selections_perm {l : List Int} {p : Int × List Int} (h : p ∈ selections l) : (p.1 :: p.2).Perm l := by
  induction l generalizing p with
  | nil => simp [selections] at h
  | cons x xs ih =>
    rcases List.mem_cons.1 h with rfl | h
    · exact .refl _
    · obtain ⟨q, hq, rfl⟩ := List.mem_map.1 h
      exact (List.Perm.swap _ _ _).trans ((ih hq).cons x)

theorem selections_sublist {l : List Int} {p : Int × List Int} (h : p ∈ selections l) : p.2.Sublist l := by
  induction l generalizing p with
  | nil => simp [selections] at h
  | cons x xs ih =>
    rcases List.mem_cons.1 h with rfl | h
    · exact List.sublist_cons_self _ _
    · obtain ⟨q, hq, rfl⟩ := List.mem_map.1 h
      exact (ih hq).cons_cons x

theorem length_of_mem_selections {l : List Int} {n : Nat} {p : Int × List Int} (hl : l.length = n + 1)
    (h : p ∈ selections l) : p.2.length = n := by
  have hlength := (selections_perm h).length_eq
  rw [List.length_cons] at hlength
  omega

theorem mem_arrangements_succ {n : Nat} {l o : List Int} :
    o ∈ arrangements (n + 1) l ↔ ∃ p ∈ selections l, ∃ q ∈ arrangements n p.2, p.1 :: q = o := by
  rw [arrangements, List.mem_flatMap]
  simp only [List.mem_map]

theorem mem_arrangements_iff {n : Nat} {l o : List Int} (hl : l.length = n) : o ∈ arrangements n l ↔ o.Perm l := by
  induction n generalizing l o with
  | zero =>
    rw [List.length_eq_zero_iff.1 hl, List.perm_nil]
    exact List.mem_singleton
  | succ n ih =>
    rw [mem_arrangements_succ]
    constructor
    · rintro ⟨p, hp, q, hq, rfl⟩
      rw [ih (length_of_mem_selections hl hp)] at hq
      exact (hq.cons p.1).trans (selections_perm hp)
    · intro hperm
      obtain ⟨x, q, rfl⟩ : ∃ x q, o = x :: q := List.exists_cons_of_length_eq_add_one (hperm.length_eq.trans hl)
      obtain ⟨p, hp, rfl⟩ : ∃ p ∈ selections l, p.1 = x := by
        rw [← List.mem_map, selections_fst]
        exact hperm.subset List.mem_cons_self
      have hq : q.Perm p.2 := (hperm.trans (selections_perm hp).symm).cons_inv
      exact ⟨p, hp, q, (ih (length_of_mem_selections hl hp)).2 hq, rfl⟩

theorem length_arrangements {n : Nat} {l : List Int} (hl : l.length = n) :
    (arrangements n l).length = n.factorial := by
  induction n generalizing l with
  | zero => rfl
  | succ n ih =>
    have hsum : ∀ p ∈ selections l, ((arrangements n p.2).map fun q => p.1 :: q).length = n.factorial :=
      fun p hp => by rw [List.length_map, ih (length_of_mem_selections hl hp)]
    rw [arrangements, List.length_flatMap, List.map_congr_left hsum, List.map_const', List.sum_replicate,
      length_selections, hl, smul_eq_mul, Nat.factorial_succ]

/-- Of two arrangements of distinct sorted words, the one that begins with an earlier selection is the smaller one, and
those with the same first word follow the order of the rest. -/
theorem arrangements_lex (n : Nat) {l : List Int} (hl : l.Pairwise (· < ·)) :
    (arrangements n l).Pairwise (List.Lex (· < ·)) := by
  induction n generalizing l with
  | zero => exact List.pairwise_singleton _ _
  | succ n ih =>
    rw [arrangements, List.pairwise_flatMap]
    constructor
    · intro p hp
      rw [List.pairwise_map]
      exact (ih (hl.sublist (selections_sublist hp))).imp List.Lex.cons
    · have hfst : (selections l).Pairwise fun p p' => p.1 < p'.1 := by
        rwa [← List.pairwise_map, selections_fst]
      refine hfst.imp fun {p p'} hlt o ho o' ho' => ?_
      obtain ⟨q, -, rfl⟩ := List.mem_map.1 ho
      obtain ⟨q', -, rfl⟩ := List.mem_map.1 ho'
      exact .rel hlt

/-- Settles O60: the orders are the arrangements of all the sorted phases. -/
theorem phaseOrdersAreThePermutations : Obligations.PhaseOrdersAreThePermutations := by
  intro phases
  have hlength : (sortWords phases).length = phases.length := (sortWords_perm phases).length_eq
  refine ⟨fun o => ?_, length_arrangements hlength, fun hnodup => arrangements_lex _ (sortWords_strict hnodup)⟩
  rw [phaseOrders, mem_arrangements_iff hlength]
  exact ⟨fun h => h.trans (sortWords_perm phases), fun h => h.trans (sortWords_perm phases).symm⟩

end Sys2Proof.Machine
end

/-! ## Proofs: the rest of the reset state, and the range of a word (00_scope.md R6, R8, 10_state.md R26 to R30) -/
section
namespace Sys2Proof

theorem Config.wmax_sub_wmin (c : Config) : c.wmax - c.wmin + 1 = (2 ^ c.wordBits.bits : Nat) := by
  obtain ⟨w, _, _⟩ := c
  cases w <;> simp [Config.wmax, Config.wmin, WordBits.bits]

/-- Wrapping changes a value by whole turns of the word range. -/
theorem wrapW_add_turns (c : Config) (r : Int) :
    r = c.wrapW r + (r - c.wmin) / (2 ^ c.wordBits.bits : Nat) * (2 ^ c.wordBits.bits : Nat) := by
  have hdivision := Int.emod_add_ediv_mul (r - c.wmin) (2 ^ c.wordBits.bits : Nat)
  rw [Config.wrapW]
  omega

theorem wrapW_of_isWord {c : Config} {r : Int} (h : c.isWord r = true) : c.wrapW r = r := by
  obtain ⟨hmin, hmax⟩ := isWord_iff.1 h
  have hwidth := c.wmax_sub_wmin
  rw [Config.wrapW, Int.emod_eq_of_lt (by omega) (by omega)]
  omega

end Sys2Proof

namespace Sys2Proof.Machine

/-- Settles O2: creation and reset write these fields so. -/
theorem creationSetsPcQueuesAndLatch : Obligations.CreationSetsPcQueuesAndLatch :=
  ⟨fun _ _ _ => ⟨rfl, rfl, rfl, rfl, rfl⟩, rfl⟩

/-- Settles O5: `WMIN` and `WMAX` computed at both widths. -/
theorem wordRangeAtBothWidths : Obligations.WordRangeAtBothWidths :=
  fun _ _ _ => ⟨isWord_iff, isWord_iff⟩

/-- Settles O6: the remainder lies in one turn of the word range, and differs from the value by whole turns. -/
theorem wrapReducesIntoTheWordRange : Obligations.WrapReducesIntoTheWordRange :=
  fun c r => ⟨wrapW_isWord c r, ⟨_, wrapW_add_turns c r⟩, wrapW_of_isWord⟩

end Sys2Proof.Machine
end
